-- ==== Sys2Proof/Word.lean ====
section
/-! DEFINITION. The data formats of the codec as bit vectors of the widths of 00_scope.md R4, and the layout mode.
Every value is an unsigned bit vector, bit 0 the least significant (R5). -/

namespace Sys2Proof

/-- A nibble of data bits `d1 d2 d3 d4`, `d1` at bit 3 (`NIBBLE_W`, 30_encoding.md R60). -/
abbrev Nibble := BitVec 4

/-- A codeword `p1 p2 d1 p3 d2 d3 d4`, `p1` at bit 6 (`CW_W`, R61). Any 7-bit value, valid codeword or not. -/
abbrev Codeword := BitVec 7

/-- The decoder's input `p1 p2 d1 p3 d2 d3 d4 p4`, `p1` at bit 7 (`FRAME_W`, R62). -/
abbrev Frame := BitVec 8

/-- The syndrome value `s3 s2 s1`, `s1` at bit 0 (`PARITY_W`, R63). -/
abbrev Syndrome := BitVec 3

/-- One unit of a stream (`BYTE_W`, 20_memory.md R40). -/
abbrev Byte := BitVec 8

/-- The transmitted pair, the first byte in bits 15..8 (`PAIR_W`, 20_memory.md R42). -/
abbrev Pair := BitVec 16

/-- The two layouts of a transmitted pair (00_scope.md R4, 10_state.md R26). -/
inductive Mode where
  /-- Low codeword, then high codeword, then the pad (R65). Selector bit 0. -/
  | concatenated
  /-- Bits of the two codewords in turn, low codeword first, then the pad (R66). Selector bit 1. -/
  | interleaved
deriving DecidableEq, Repr, Inhabited

end Sys2Proof
end

