-- ==== Sys2Proof/Config.lean ====
section
/-! DEFINITION. What an implementation fixes, and the value the spec leaves free. -/

namespace Sys2Proof

/-- `MODE`, the one open parameter of an instance (00_scope.md R4; 92_eei_decisions.md D12: no default can be justified).
It has no body, so no proof can lean on which layout an instance has. `State.reset` takes its mode from it. -/
opaque Config.mode : Mode

/-- The value of `pair_hold` where the spec says "unspecified (any value)": at power-on and after RESET (10_state.md R30,
70_reset_and_hazards.md R190, 93_implementation_defined.md V1). Applied to the counter `State.freeCount`, which moves on at
each use. It has no body, so no proof can lean on a value of it. -/
opaque Config.unspecifiedHold : Nat → Byte

/-- `P4_FILL`: what the stream decoder puts in a frame's p4 slot (00_scope.md R4, 92_eei_decisions.md D4). -/
def Config.p4Fill : BitVec 1 := 0#1

end Sys2Proof
end

