-- ==== Sys2Proof/Syntax.lean ====
section
/-! DEFINITION. The ten operations of 30_encoding.md R69, the units that perform them, and operation words.
The hardware has no instruction words: an operation is selected by the unit that is driven and by that unit's selector bits.
The operation word is those selector bits followed by the unit's data input. -/

namespace Sys2Proof

/-- The operations of spec/opcode_table.json, one constructor per row, with the fields of its operation word. -/
inductive Instr where
  /-- ENCN: encode one nibble (40_hamming_74_encoder.md R101). -/
  | encn (n : Nibble)
  /-- DECN: decode one frame (41_hamming_74_decoder_syndrome.md R111). -/
  | decn (f : Frame)
  /-- CAT: two codewords to a pair, concatenated (42_bit_interleaver.md R131). -/
  | cat (l h : Codeword)
  /-- ILV: two codewords to a pair, interleaved (R132). -/
  | ilv (l h : Codeword)
  /-- DCAT: a concatenated pair to two codewords (R133). -/
  | dcat (b0 b1 : Byte)
  /-- DILV: an interleaved pair to two codewords (R134). -/
  | dilv (b0 b1 : Byte)
  /-- ENCB: encode one stream byte `b` under `MODE = m` (43_stream_layer.md R151). -/
  | encb (m : Mode) (b : Byte)
  /-- DECB0: take `b` as the first byte of a pair; `m` is `MODE`, ignored (R152). -/
  | decb0 (m : Mode) (b : Byte)
  /-- DECB1: take `b` as the second byte of a pair and emit the decoded byte (R153). -/
  | decb1 (m : Mode) (b : Byte)
  /-- RESET of the whole instance (70_reset_and_hazards.md R190). -/
  | reset
deriving DecidableEq, Repr

/-- The units of R69, each with a decode space of its own ("the rows of different units do not share one decode space"). -/
inductive OpUnit where
  /-- `hamming_74_encoder`. -/
  | encoderBlock
  /-- `hamming_74_decoder_syndrome`. -/
  | decoderBlock
  /-- The forward port of `bit_interleaver`. -/
  | forwardPort
  /-- The inverse port of `bit_interleaver`. -/
  | inversePort
  /-- The stream encoder. -/
  | streamEncoder
  /-- The stream decoder. -/
  | streamDecoder
  /-- The reset input `rst` of the whole instance. -/
  | resetInput
deriving DecidableEq, Repr

/-- The width of a unit's operation word (the `width` column of spec/opcode_table.json). No two units have the same. -/
def OpUnit.width : OpUnit → Nat
  | .encoderBlock => 4
  | .decoderBlock => 8
  | .forwardPort => 15
  | .inversePort => 17
  | .streamEncoder => 9
  | .streamDecoder => 10
  | .resetInput => 1

/-- An operation word: the unit that is driven, and the word's bits, right-aligned in the widest word's 17. -/
structure OpWord where
  unit : OpUnit
  bits : BitVec 17
deriving DecidableEq, Repr

/-- Why a word is no operation. -/
inductive DecodeError where
  /-- A bit above the unit's word width is 1. -/
  | wordTooWide (unit : OpUnit)
  /-- The reset unit's word with `rst = 0`: no operation. -/
  | resetNotAsserted
deriving DecidableEq, Repr

/-- The unit that performs an operation (R69, second column). -/
def Instr.unit : Instr → OpUnit
  | .encn _ => .encoderBlock
  | .decn _ => .decoderBlock
  | .cat _ _ => .forwardPort
  | .ilv _ _ => .forwardPort
  | .dcat _ _ => .inversePort
  | .dilv _ _ => .inversePort
  | .encb _ _ => .streamEncoder
  | .decb0 _ _ => .streamDecoder
  | .decb1 _ _ => .streamDecoder
  | .reset => .resetInput

/-- The mnemonic of an operation, as spec/opcode_table.json spells it. -/
def Instr.mnemonic : Instr → String
  | .encn _ => "ENCN"
  | .decn _ => "DECN"
  | .cat _ _ => "CAT"
  | .ilv _ _ => "ILV"
  | .dcat _ _ => "DCAT"
  | .dilv _ _ => "DILV"
  | .encb _ _ => "ENCB"
  | .decb0 _ _ => "DECB0"
  | .decb1 _ _ => "DECB1"
  | .reset => "RESET"

end Sys2Proof
end

