-- ==== Sys2Proof/Machine/State.lean ====
section
/-! DEFINITION. The state of one instance of the codec and of the environment it runs in, the reasons an operation can stop,
and the state after reset. 10_state.md R20 is the whole of the spec's state; the ports of the blocks (92_eei_decisions.md D2)
are held so that a block's result can be seen, and two fields are the model's own (`schedule`, `freeCount`). -/

namespace Sys2Proof.Machine

/-- The ports of the three blocks used on their own: what drives each input, and what the block answers on each output.
A block is combinational (R100, R110, R130), so a block's outputs are a function of its inputs. -/
structure Ports where
  /-- `nibble_in[3:0]` of `hamming_74_encoder` (R100). -/
  nibbleIn : Nibble
  /-- `codeword_out[6:0]` (R100). -/
  codewordOut : Codeword
  /-- `frame_in[7:0]` of `hamming_74_decoder_syndrome` (R110). -/
  frameIn : Frame
  /-- `nibble_out[3:0]` (R110). -/
  nibbleOut : Nibble
  /-- `syndrome_out[2:0]` (R110, R119). -/
  syndromeOut : Syndrome
  /-- `lo_cw_in[6:0]` of `bit_interleaver`'s forward port (R130). -/
  loCwIn : Codeword
  /-- `hi_cw_in[6:0]` (R130). -/
  hiCwIn : Codeword
  /-- `byte0_out[7:0]` (R130). -/
  byte0Out : Byte
  /-- `byte1_out[7:0]` (R130). -/
  byte1Out : Byte
  /-- `byte0_in[7:0]` of `bit_interleaver`'s inverse port (R130). -/
  byte0In : Byte
  /-- `byte1_in[7:0]` (R130). -/
  byte1In : Byte
  /-- `lo_cw_out[6:0]` (R130). -/
  loCwOut : Codeword
  /-- `hi_cw_out[6:0]` (R130). -/
  hiCwOut : Codeword
deriving DecidableEq, Repr

/-- One thing the environment does or lets happen (20_memory.md R48): it drives a block, gives a path its turn, asserts
`rst`, appends to an input stream, consumes from an output stream, or lets time pass. -/
inductive Drive where
  /-- `nibble_in` is wired to the low bits of a bus that carries `value` (30_encoding.md R68). -/
  | nibble (value : Nat)
  /-- `frame_in` is wired to the low bits of a bus that carries `value` (R68). -/
  | frame (value : Nat)
  /-- Two codewords on the forward port; `MODE` selects CAT or ILV (R130). -/
  | codewords (l h : Codeword)
  /-- Two bytes on the inverse port; `MODE` selects DCAT or DILV (R130). -/
  | pair (b0 b1 : Byte)
  /-- The encode path's turn (R48). -/
  | encodeTurn
  /-- The decode path's turn (R48). -/
  | decodeTurn
  /-- `rst` is asserted (R190). -/
  | rst
  /-- The environment appends one byte to `ENC_IN` (R20). -/
  | deliverEnc (b : Byte)
  /-- The environment appends one byte to `DEC_IN` (R20). -/
  | deliverDec (b : Byte)
  /-- The environment consumes the first byte of `ENC_OUT` (R48). -/
  | takeEnc
  /-- The environment consumes the first byte of `DEC_OUT` (R48). -/
  | takeDec
  /-- Nothing happens: "any finite delay between enabled transactions" (R198). -/
  | idle
deriving DecidableEq, Repr

/-- The state of one instance and of its streams. -/
structure State where
  /-- `MODE` (R26): held so that one type covers every instance; no operation and no step writes it. -/
  mode : Mode
  /-- `pair_pending`, the one flag, also a status output (R23). -/
  pairPending : Bool
  /-- `pair_hold`, the first byte of the pair in progress (R24). -/
  pairHold : Byte
  /-- `ENC_IN`, head first (R28, R41). -/
  encIn : List Byte
  /-- `ENC_OUT`, in the order pushed (R28, R41). -/
  encOut : List Byte
  /-- `DEC_IN`, head first (R28, R41). -/
  decIn : List Byte
  /-- `DEC_OUT`, in the order pushed (R28, R41). -/
  decOut : List Byte
  /-- The blocks' ports (92_eei_decisions.md D2). -/
  ports : Ports
  /-- The model's own: how many unspecified values of `pair_hold` have been drawn. -/
  freeCount : Nat
  /-- The model's own: what the environment does next, oldest first. Where it is empty the two paths run by themselves. -/
  schedule : List Drive
deriving DecidableEq, Repr

/-- The hardware faults on nothing (60_exceptions.md R170: "No operation of the hardware raises a synchronous exception"),
so there is no fault reason. -/
inductive Fault where
deriving DecidableEq, Repr

/-- Why an operation has no meaning in a state. No step answers any of these: the operation word is formed from the
unit's own inputs, so it always agrees with the state. Each is safe: the machine stops where the spec gives no effect. -/
inductive Refusal where
  /-- Raised by an arm of `exec` whose operation has no meaning yet. Safe. No arm is left so. -/
  | notModelled (mnemonic : String)
  /-- Raised by CAT, ILV, DCAT, DILV, ENCB and DECB1 where the word's mode selector is not the instance's `MODE`: a change
  of `MODE` in use (93_implementation_defined.md U8: `refuse`). Safe. -/
  | modeChanged
  /-- Raised by DECB0 and DECB1 where the word's `pair_pending` selector is not the state's: the operation is not the one
  selected (R152 "requires pair_pending == 0", R153 "requires pair_pending == 1"). Safe. -/
  | notSelected
  /-- Raised by ENCB, DECB0 and DECB1 where the word's byte is not the head of the unit's input stream: no such transaction
  (R151 to R153 "Operands: the byte at the head"). Safe. -/
  | operandNotAtHead
  /-- Raised by step on a word that the decoder refuses. Safe. -/
  | illegalWord (reason : DecodeError)
deriving DecidableEq, Repr

/-- What an operation or a step answers. -/
abbrev Result := Host.Outcome State Fault Refusal

/-- All ports at zero. Zero inputs give zero outputs in every block and in both modes, so these ports are combinational. -/
def Ports.zero : Ports :=
  { nibbleIn := 0, codewordOut := 0, frameIn := 0, nibbleOut := 0, syndromeOut := 0, loCwIn := 0, hiCwIn := 0,
    byte0Out := 0, byte1Out := 0, byte0In := 0, byte1In := 0, loCwOut := 0, hiCwOut := 0 }

/-- The launch state of an instance with layout `m` and the input streams `encIn` and `decIn` (R20, R191):
`pair_pending = 0`, `pair_hold` unspecified, the output streams empty. -/
def State.launch (m : Mode) (encIn decIn : List Byte) : State :=
  { mode := m, pairPending := false, pairHold := Config.unspecifiedHold 0, encIn := encIn, encOut := [],
    decIn := decIn, decOut := [], ports := Ports.zero, freeCount := 1, schedule := [] }

/-- The machine right after reset, with nothing delivered yet (R30, R191). -/
def State.reset : State := State.launch Config.mode [] []

end Sys2Proof.Machine
end

