-- ==== Sys2Proof/Machine/Operands.lean ====
section
/-! DEFINITION. Operand forms: bits, nibbles of a byte, the assembly of a codeword into a frame, the truncation of wide
inputs, and the mask of a bit position. -/

namespace Sys2Proof.Machine

/-- `{b2, b1, b0}` (00_scope.md R5: the first is the most significant bit). -/
def bits3 (b2 b1 b0 : Bool) : BitVec 3 := BitVec.ofBool b2 ++ BitVec.ofBool b1 ++ BitVec.ofBool b0

/-- `{b3, …, b0}` (R5). -/
def bits4 (b3 b2 b1 b0 : Bool) : BitVec 4 :=
  BitVec.ofBool b3 ++ BitVec.ofBool b2 ++ BitVec.ofBool b1 ++ BitVec.ofBool b0

/-- `{b6, …, b0}` (R5). -/
def bits7 (b6 b5 b4 b3 b2 b1 b0 : Bool) : BitVec 7 :=
  BitVec.ofBool b6 ++ BitVec.ofBool b5 ++ BitVec.ofBool b4 ++ BitVec.ofBool b3 ++ BitVec.ofBool b2 ++
    BitVec.ofBool b1 ++ BitVec.ofBool b0

/-- `{b7, …, b0}` (R5). -/
def bits8 (b7 b6 b5 b4 b3 b2 b1 b0 : Bool) : BitVec 8 :=
  BitVec.ofBool b7 ++ BitVec.ofBool b6 ++ BitVec.ofBool b5 ++ BitVec.ofBool b4 ++ BitVec.ofBool b3 ++
    BitVec.ofBool b2 ++ BitVec.ofBool b1 ++ BitVec.ofBool b0

/-- `b[7:4]` (30_encoding.md R64). -/
def msNibble (b : Byte) : Nibble := b.extractLsb' 4 4

/-- `b[3:0]` (R64). -/
def lsNibble (b : Byte) : Nibble := b.extractLsb' 0 4

/-- `F = {c[6:0], p4}` (R62, R67). -/
def frameOf (c : Codeword) (p4 : BitVec 1) : Frame := c ++ p4

/-- `trunc_4`: the encoder's port takes the low 4 bits of a wider value (R68). -/
def truncNibble (value : Nat) : Nibble := BitVec.ofNat 4 value

/-- `trunc_8`: the decoder's port takes the low 8 bits of a wider value (R68). -/
def truncFrame (value : Nat) : Frame := BitVec.ofNat 8 value

/-- `{hi, lo}`, the byte of two nibbles (R64). -/
def byteOfNibbles (hi lo : Nibble) : Byte := hi ++ lo

/-- The mask of position `k` (1..8, counted from the most significant bit) of a frame (R5, 41_..._syndrome.md R118). -/
def positionMask (k : Nat) : Frame := 1#8 <<< (8 - k)

end Sys2Proof.Machine
end

