-- ==== Sys2Proof/Machine/Flags.lean ====
section
/-! DEFINITION. The one flag of the hardware, `pair_pending` (10_state.md R23), with the byte it makes meaningful, and the
guards by which `pair_pending` and `MODE` select an operation. There are no condition codes (R23). -/

namespace Sys2Proof.Machine

/-- Writes the flag and `pair_hold`. -/
def State.withPair (s : State) (pending : Bool) (hold : Byte) : State :=
  { s with pairPending := pending, pairHold := hold }

/-- Moves the model's counter of unspecified values on. -/
def State.countFree (s : State) : State := { s with freeCount := s.freeCount + 1 }

/-- DECB0's write: the byte is held and the flag is set (43_stream_layer.md R152). -/
def State.holdByte (s : State) (b : Byte) : State := s.withPair true b

/-- DECB1's write: the flag is cleared and `pair_hold` keeps its value (R153). -/
def State.clearPending (s : State) : State := s.withPair false s.pairHold

/-- RESET's write: the flag is cleared and `pair_hold` becomes unspecified (70_reset_and_hazards.md R190). -/
def State.forgetPair (s : State) : State := (s.withPair false (Config.unspecifiedHold s.freeCount)).countFree

/-- The `MODE` selector: an operation selected under `m` runs on an instance whose `MODE` is `m`. On another instance its
word would be a change of `MODE` in use, which 93_implementation_defined.md U8 says to refuse. -/
def State.underMode (s : State) (m : Mode) (run : State → Result) : Result :=
  if s.mode = m then run s else .refused .modeChanged

/-- The `pair_pending` selector of the stream decoder (30_encoding.md R69). -/
def State.whenPending (s : State) (pending : Bool) (run : State → Result) : Result :=
  if s.pairPending = pending then run s else .refused .notSelected

end Sys2Proof.Machine
end

