-- ==== Sys2Proof/Machine/Ops.lean ====
section
/-! DEFINITION. The pure functions of the three blocks, the byte codec built of them, the stream primitives, and the writes of
a block's ports. No operation raises an exception and there is no trap entry and no return (60_exceptions.md R170, R175, R176),
so there is no operation here that takes one. -/

namespace Sys2Proof.Machine

/-! ### The codeword blocks -/

/-- ENCN (40_hamming_74_encoder.md R101). -/
def encn (n : Nibble) : Codeword :=
  let d1 := n.getLsbD 3
  let d2 := n.getLsbD 2
  let d3 := n.getLsbD 1
  let d4 := n.getLsbD 0
  let p1 := d1 ^^ d2 ^^ d4
  let p2 := d1 ^^ d3 ^^ d4
  let p3 := d2 ^^ d3 ^^ d4
  bits7 p1 p2 d1 p3 d2 d3 d4

/-- Step 1 of DECN, `v = {s3, s2, s1}` (41_hamming_74_decoder_syndrome.md R112). -/
def syndrome (f : Frame) : Syndrome :=
  let s1 := f.getLsbD 7 ^^ f.getLsbD 5 ^^ f.getLsbD 3 ^^ f.getLsbD 1
  let s2 := f.getLsbD 6 ^^ f.getLsbD 5 ^^ f.getLsbD 2 ^^ f.getLsbD 1
  let s3 := f.getLsbD 4 ^^ f.getLsbD 3 ^^ f.getLsbD 2 ^^ f.getLsbD 1
  bits3 s3 s2 s1

/-- Step 2 of DECN: a nonzero `v` inverts bit index `8 - v` (R113; 90_conflicts.md C1). -/
def correct (f : Frame) (v : Syndrome) : Frame :=
  if v = 0 then f else f ^^^ positionMask v.toNat

/-- Step 3 of DECN: `{G[5], G[3], G[2], G[1]}` (R114). -/
def extract (g : Frame) : Nibble := bits4 (g.getLsbD 5) (g.getLsbD 3) (g.getLsbD 2) (g.getLsbD 1)

/-- DECN: the corrected nibble and the syndrome (R111). -/
def decn (f : Frame) : Nibble × Syndrome := (extract (correct f (syndrome f)), syndrome f)

/-! ### The interleaver block -/

/-- CAT: `byte0 = {L[6:0], H[6]}`, `byte1 = {H[5:0], 2'b00}` (42_bit_interleaver.md R131). -/
def cat (l h : Codeword) : Byte × Byte :=
  (bits8 (l.getLsbD 6) (l.getLsbD 5) (l.getLsbD 4) (l.getLsbD 3) (l.getLsbD 2) (l.getLsbD 1) (l.getLsbD 0) (h.getLsbD 6),
   bits8 (h.getLsbD 5) (h.getLsbD 4) (h.getLsbD 3) (h.getLsbD 2) (h.getLsbD 1) (h.getLsbD 0) false false)

/-- ILV: `byte0 = {L[6], H[6], L[5], H[5], L[4], H[4], L[3], H[3]}`, `byte1 = {L[2], H[2], L[1], H[1], L[0], H[0], 2'b00}`
(R132; 90_conflicts.md C4). -/
def ilv (l h : Codeword) : Byte × Byte :=
  (bits8 (l.getLsbD 6) (h.getLsbD 6) (l.getLsbD 5) (h.getLsbD 5) (l.getLsbD 4) (h.getLsbD 4) (l.getLsbD 3) (h.getLsbD 3),
   bits8 (l.getLsbD 2) (h.getLsbD 2) (l.getLsbD 1) (h.getLsbD 1) (l.getLsbD 0) (h.getLsbD 0) false false)

/-- DCAT: `L = byte0[7:1]`, `H = {byte0[0], byte1[7:2]}`; the pad `byte1[1:0]` is discarded (R133). -/
def dcat (b0 b1 : Byte) : Codeword × Codeword :=
  (bits7 (b0.getLsbD 7) (b0.getLsbD 6) (b0.getLsbD 5) (b0.getLsbD 4) (b0.getLsbD 3) (b0.getLsbD 2) (b0.getLsbD 1),
   bits7 (b0.getLsbD 0) (b1.getLsbD 7) (b1.getLsbD 6) (b1.getLsbD 5) (b1.getLsbD 4) (b1.getLsbD 3) (b1.getLsbD 2))

/-- DILV: `L = {byte0[7], byte0[5], byte0[3], byte0[1], byte1[7], byte1[5], byte1[3]}`,
`H = {byte0[6], byte0[4], byte0[2], byte0[0], byte1[6], byte1[4], byte1[2]}`; the pad is discarded (R134). -/
def dilv (b0 b1 : Byte) : Codeword × Codeword :=
  (bits7 (b0.getLsbD 7) (b0.getLsbD 5) (b0.getLsbD 3) (b0.getLsbD 1) (b1.getLsbD 7) (b1.getLsbD 5) (b1.getLsbD 3),
   bits7 (b0.getLsbD 6) (b0.getLsbD 4) (b0.getLsbD 2) (b0.getLsbD 0) (b1.getLsbD 6) (b1.getLsbD 4) (b1.getLsbD 2))

/-- The forward port under a mode (R130). -/
def forward (m : Mode) (l h : Codeword) : Byte × Byte :=
  match m with
  | .concatenated => cat l h
  | .interleaved => ilv l h

/-- The inverse port under a mode (R130). -/
def inverse (m : Mode) (b0 b1 : Byte) : Codeword × Codeword :=
  match m with
  | .concatenated => dcat b0 b1
  | .interleaved => dilv b0 b1

/-! ### The byte codec -/

/-- The two bytes that ENCB emits for `b` (43_stream_layer.md R151). -/
def encodeByte (m : Mode) (b : Byte) : Byte × Byte := forward m (encn (lsNibble b)) (encn (msNibble b))

/-- The byte that DECB1 emits for a pair, `{hi, lo}` (R153). -/
def decodePair (m : Mode) (b0 b1 : Byte) : Byte :=
  let c := inverse m b0 b1
  byteOfNibbles (decn (frameOf c.2 Config.p4Fill)).1 (decn (frameOf c.1 Config.p4Fill)).1

/-! ### Streams (20_memory.md R41) -/

/-- Writes the encode path's two streams. -/
def State.withEnc (s : State) (input output : List Byte) : State := { s with encIn := input, encOut := output }

/-- Writes the decode path's two streams. -/
def State.withDec (s : State) (input output : List Byte) : State := { s with decIn := input, decOut := output }

/-- `StreamPop(ENC_IN)` for an operation whose word carries `b`. An empty stream enables no pop: the unit waits, and
nothing changes (R41). -/
def State.popEnc (s : State) (b : Byte) (run : State → Result) : Result :=
  match s.encIn with
  | [] => .next s
  | x :: rest => if x = b then run (s.withEnc rest s.encOut) else .refused .operandNotAtHead

/-- `StreamPop(DEC_IN)`, likewise. -/
def State.popDec (s : State) (b : Byte) (run : State → Result) : Result :=
  match s.decIn with
  | [] => .next s
  | x :: rest => if x = b then run (s.withDec rest s.decOut) else .refused .operandNotAtHead

/-- `StreamPush(ENC_OUT, v)` (R41). -/
def State.pushEnc (s : State) (v : Byte) : State := s.withEnc s.encIn (s.encOut ++ [v])

/-- `StreamPush(DEC_OUT, v)` (R41). -/
def State.pushDec (s : State) (v : Byte) : State := s.withDec s.decIn (s.decOut ++ [v])

/-! ### Ports of the blocks -/

/-- `nibble_in` and `codeword_out` (R100). -/
def Ports.withEncoder (p : Ports) (n : Nibble) (c : Codeword) : Ports := { p with nibbleIn := n, codewordOut := c }

/-- `frame_in`, `nibble_out` and `syndrome_out` (R110). -/
def Ports.withDecoder (p : Ports) (f : Frame) (r : Nibble × Syndrome) : Ports :=
  { p with frameIn := f, nibbleOut := r.1, syndromeOut := r.2 }

/-- The forward port (R130). -/
def Ports.withForward (p : Ports) (l h : Codeword) (r : Byte × Byte) : Ports :=
  { p with loCwIn := l, hiCwIn := h, byte0Out := r.1, byte1Out := r.2 }

/-- The inverse port (R130). -/
def Ports.withInverse (p : Ports) (b0 b1 : Byte) (r : Codeword × Codeword) : Ports :=
  { p with byte0In := b0, byte1In := b1, loCwOut := r.1, hiCwOut := r.2 }

/-- Writes the ports. -/
def State.withPorts (s : State) (p : Ports) : State := { s with ports := p }

/-- Writes the environment's schedule. -/
def State.withSchedule (s : State) (ds : List Drive) : State := { s with schedule := ds }

end Sys2Proof.Machine
end

