-- ==== Sys2Proof/Machine/Codeword.lean ====
section
/-! DEFINITION. ENCN and DECN, the operations of the two codeword blocks. -/

namespace Sys2Proof.Machine

/-- ENCN (40_hamming_74_encoder.md R101): the block's input port takes `n` and its output port answers the codeword. -/
def execEncn (n : Nibble) (s : State) : Result := .next (s.withPorts (s.ports.withEncoder n (encn n)))

/-- DECN (41_hamming_74_decoder_syndrome.md R111): nibble and syndrome of `f`, for each of the 256 values. -/
def execDecn (f : Frame) (s : State) : Result := .next (s.withPorts (s.ports.withDecoder f (decn f)))

end Sys2Proof.Machine
end

