-- ==== Sys2Proof/Machine/InstanceReset.lean ====
section
/-! DEFINITION. RESET, the one operation of the whole instance. -/

namespace Sys2Proof.Machine

/-- RESET (70_reset_and_hazards.md R190): `pair_pending <- 0` and `pair_hold` unspecified; `MODE`, the four streams and the
blocks are not touched. -/
def execReset (s : State) : Result := .next s.forgetPair

end Sys2Proof.Machine
end

