-- ==== Sys2Proof/Machine/Interleaver.lean ====
section
/-! DEFINITION. CAT, ILV, DCAT and DILV, the operations of `bit_interleaver`'s two ports. `MODE` selects which of the two
operations of a port an instance performs (42_bit_interleaver.md R130). -/

namespace Sys2Proof.Machine

/-- CAT (R131), selected when `MODE = CONCATENATED`. -/
def execCat (l h : Codeword) (s : State) : Result :=
  s.underMode .concatenated fun s => .next (s.withPorts (s.ports.withForward l h (cat l h)))

/-- ILV (R132), selected when `MODE = INTERLEAVED`. -/
def execIlv (l h : Codeword) (s : State) : Result :=
  s.underMode .interleaved fun s => .next (s.withPorts (s.ports.withForward l h (ilv l h)))

/-- DCAT (R133), selected when `MODE = CONCATENATED`. -/
def execDcat (b0 b1 : Byte) (s : State) : Result :=
  s.underMode .concatenated fun s => .next (s.withPorts (s.ports.withInverse b0 b1 (dcat b0 b1)))

/-- DILV (R134), selected when `MODE = INTERLEAVED`. -/
def execDilv (b0 b1 : Byte) (s : State) : Result :=
  s.underMode .interleaved fun s => .next (s.withPorts (s.ports.withInverse b0 b1 (dilv b0 b1)))

end Sys2Proof.Machine
end

