-- ==== Sys2Proof/Machine/Streams.lean ====
section
/-! DEFINITION. ENCB, DECB0 and DECB1, the transactions of the stream layer. Each is atomic: one pop with its pushes
(20_memory.md R44). -/

namespace Sys2Proof.Machine

/-- ENCB (43_stream_layer.md R151): one byte popped from `ENC_IN`, two pushed to `ENC_OUT`, the first output byte first. -/
def execEncb (m : Mode) (b : Byte) (s : State) : Result :=
  s.underMode m fun s => s.popEnc b fun s =>
    .next ((s.pushEnc (encodeByte m b).1).pushEnc (encodeByte m b).2)

/-- DECB0 (R152): the first byte of a pair is held. `MODE` is not consulted. -/
def execDecb0 (_m : Mode) (b : Byte) (s : State) : Result :=
  s.whenPending false fun s => s.popDec b fun s => .next (s.holdByte b)

/-- DECB1 (R153): the pair of `pair_hold` and `b` is decoded and one byte is pushed to `DEC_OUT`. -/
def execDecb1 (m : Mode) (b : Byte) (s : State) : Result :=
  s.underMode m fun s => s.whenPending true fun s => s.popDec b fun s =>
    .next ((s.pushDec (decodePair m s.pairHold b)).clearPending)

end Sys2Proof.Machine
end

