-- ==== Sys2Proof/Machine/Dispatch.lean ====
section
/-! DEFINITION. The meaning of every operation: one arm per constructor of `Instr`. -/

namespace Sys2Proof.Machine

def exec (i : Instr) (s : State) : Host.Outcome State Fault Refusal :=
  match i with
  | .encn n => Sys2Proof.Machine.execEncn n s
  | .decn f => Sys2Proof.Machine.execDecn f s
  | .cat l h => Sys2Proof.Machine.execCat l h s
  | .ilv l h => Sys2Proof.Machine.execIlv l h s
  | .dcat b0 b1 => Sys2Proof.Machine.execDcat b0 b1 s
  | .dilv b0 b1 => Sys2Proof.Machine.execDilv b0 b1 s
  | .encb m b => Sys2Proof.Machine.execEncb m b s
  | .decb0 m b => Sys2Proof.Machine.execDecb0 m b s
  | .decb1 m b => Sys2Proof.Machine.execDecb1 m b s
  | .reset => Sys2Proof.Machine.execReset s

end Sys2Proof.Machine
end

