-- ==== Sys2Proof/WellFormed.lean ====
section
/-! DEFINITION. Which operation words and operations are well formed. 30_encoding.md R72: "No input is illegal", so every
term of `Instr` is well formed and its fields' widths are its whole check; what can be ill formed is a raw word. -/

namespace Sys2Proof

/-- The word's bits fit its unit's width. -/
def OpWord.fits (w : OpWord) : Bool := w.bits.toNat < 2 ^ w.unit.width

/-- The word stands for an operation: it fits, and on the reset unit `rst` is asserted. -/
def OpWord.wellFormed (w : OpWord) : Bool :=
  w.fits && (w.unit != .resetInput || w.bits.getLsbD 0)

/-- R72 for each operation: every operand of the field's width is legal. -/
def Instr.wellFormed : Instr → Bool
  | .encn _ => true
  | .decn _ => true
  | .cat _ _ => true
  | .ilv _ _ => true
  | .dcat _ _ => true
  | .dilv _ _ => true
  | .encb _ _ => true
  | .decb0 _ _ => true
  | .decb1 _ _ => true
  | .reset => true

end Sys2Proof
end

