-- ==== Sys2Proof/Decode.lean ====
section
/-! DEFINITION. The operation table of 30_encoding.md R69, the decoder of operation words, the encoder, and the reading of a
number of the opcode table as an operation word. -/

namespace Sys2Proof

/-- One row of spec/opcode_table.json: `mask` and `value` (the table's `match`) over the word's low bits. -/
structure OpRow where
  mnemonic : String
  unit : OpUnit
  mask : BitVec 17
  value : BitVec 17
deriving DecidableEq, Repr

/-- spec/opcode_table.json, row by row. -/
def opTable : List OpRow :=
  [ ⟨"ENCN", .encoderBlock, 0x0#17, 0x0#17⟩,
    ⟨"DECN", .decoderBlock, 0x0#17, 0x0#17⟩,
    ⟨"CAT", .forwardPort, 0x4000#17, 0x0#17⟩,
    ⟨"ILV", .forwardPort, 0x4000#17, 0x4000#17⟩,
    ⟨"DCAT", .inversePort, 0x10000#17, 0x0#17⟩,
    ⟨"DILV", .inversePort, 0x10000#17, 0x10000#17⟩,
    ⟨"ENCB", .streamEncoder, 0x0#17, 0x0#17⟩,
    ⟨"DECB0", .streamDecoder, 0x200#17, 0x0#17⟩,
    ⟨"DECB1", .streamDecoder, 0x200#17, 0x200#17⟩,
    ⟨"RESET", .resetInput, 0x1#17, 0x1#17⟩ ]

/-- A row of the driven unit selects the word: the word's selector bits are the row's. -/
def OpRow.selects (r : OpRow) (w : OpWord) : Bool := r.unit = w.unit && w.bits &&& r.mask = r.value

/-- The mode a selector bit stands for (10_state.md R26: 1 INTERLEAVED, 0 CONCATENATED). -/
def modeOfBit (b : Bool) : Mode := if b then .interleaved else .concatenated

/-- The selector bit of a mode (R26). -/
def bitOfMode : Mode → BitVec 1
  | .concatenated => 0#1
  | .interleaved => 1#1

/-- The operation that `MODE` selects on the forward port (42_bit_interleaver.md R130). -/
def forwardOp (m : Mode) (l h : Codeword) : Instr :=
  match m with
  | .concatenated => .cat l h
  | .interleaved => .ilv l h

/-- The operation that `MODE` selects on the inverse port (R130). -/
def inverseOp (m : Mode) (b0 b1 : Byte) : Instr :=
  match m with
  | .concatenated => .dcat b0 b1
  | .interleaved => .dilv b0 b1

/-- The operation that `pair_pending` selects in the stream decoder (30_encoding.md R69). -/
def decoderOp (pending : Bool) (m : Mode) (b : Byte) : Instr :=
  match pending with
  | false => .decb0 m b
  | true => .decb1 m b

/-- The decoder: total on every word of every unit, refusing by name (R69). -/
def decode (w : OpWord) : Except DecodeError Instr :=
  if w.fits then
    match w.unit with
    | .encoderBlock => .ok (.encn (w.bits.extractLsb' 0 4))
    | .decoderBlock => .ok (.decn (w.bits.extractLsb' 0 8))
    | .forwardPort =>
      .ok (forwardOp (modeOfBit (w.bits.getLsbD 14)) (w.bits.extractLsb' 7 7) (w.bits.extractLsb' 0 7))
    | .inversePort =>
      .ok (inverseOp (modeOfBit (w.bits.getLsbD 16)) (w.bits.extractLsb' 8 8) (w.bits.extractLsb' 0 8))
    | .streamEncoder => .ok (.encb (modeOfBit (w.bits.getLsbD 8)) (w.bits.extractLsb' 0 8))
    | .streamDecoder =>
      .ok (decoderOp (w.bits.getLsbD 9) (modeOfBit (w.bits.getLsbD 8)) (w.bits.extractLsb' 0 8))
    | .resetInput => if w.bits.getLsbD 0 then .ok .reset else .error .resetNotAsserted
  else .error (.wordTooWide w.unit)

/-- The encoder, from the `operation word (MSB first)` column of R69: selector bits, then data. -/
def encode : Instr → OpWord
  | .encn n => ⟨.encoderBlock, n.setWidth 17⟩
  | .decn f => ⟨.decoderBlock, f.setWidth 17⟩
  | .cat l h => ⟨.forwardPort, (0#1 ++ l ++ h).setWidth 17⟩
  | .ilv l h => ⟨.forwardPort, (1#1 ++ l ++ h).setWidth 17⟩
  | .dcat b0 b1 => ⟨.inversePort, (0#1 ++ b0 ++ b1).setWidth 17⟩
  | .dilv b0 b1 => ⟨.inversePort, (1#1 ++ b0 ++ b1).setWidth 17⟩
  | .encb m b => ⟨.streamEncoder, (bitOfMode m ++ b).setWidth 17⟩
  | .decb0 m b => ⟨.streamDecoder, (0#1 ++ bitOfMode m ++ b).setWidth 17⟩
  | .decb1 m b => ⟨.streamDecoder, (1#1 ++ bitOfMode m ++ b).setWidth 17⟩
  | .reset => ⟨.resetInput, 1#17⟩

/-- Which unit a number of `nbits` bits drives. DESIGN CHOICE (log entry 9): the table's rows belong to seven decode spaces
and a bare number does not say which. A length that is one unit's exact word width names that unit; a length in whole bytes,
which more than one unit shares, goes to the unit with the narrowest word that the number fits. -/
def unitOfTableWord (nbits w : Nat) : Option OpUnit :=
  match nbits with
  | 1 => some .resetInput
  | 4 => some .encoderBlock
  | 8 => if w = 1 then some .resetInput else if w < 16 then some .encoderBlock else some .decoderBlock
  | 9 => some .streamEncoder
  | 10 => some .streamDecoder
  | 15 => some .forwardPort
  | 16 => if w < 512 then some .streamEncoder else if w < 1024 then some .streamDecoder else some .forwardPort
  | 17 => some .inversePort
  | 24 => some .inversePort
  | _ => none

/-- The operation the decoder reads from a number of the opcode table; none where it refuses. -/
def decodeTableWord (nbits w : Nat) : Option Instr :=
  match unitOfTableWord nbits w with
  | none => none
  | some u => if w < 2 ^ 17 then (decode ⟨u, BitVec.ofNat 17 w⟩).toOption else none

end Sys2Proof
end

