-- ==== Sys2Proof/Machine/Environment.lean ====
section
/-! DEFINITION. How a step comes by its operation: the operation words that stand on the units' inputs, what the environment
does next, and how a given operation is set up to be the next one. -/

namespace Sys2Proof.Machine

/-! ### Operation words (30_encoding.md R69): selector bits, then the unit's data input -/

/-- The word on the stream encoder's inputs: `{MODE, head of ENC_IN}`; none while `ENC_IN` is empty. -/
def State.encoderWord (s : State) : Option OpWord :=
  match s.encIn with
  | [] => none
  | b :: _ => some ⟨.streamEncoder, (bitOfMode s.mode ++ b).setWidth 17⟩

/-- The word on the stream decoder's inputs: `{pair_pending, MODE, head of DEC_IN}`; none while `DEC_IN` is empty. -/
def State.decoderWord (s : State) : Option OpWord :=
  match s.decIn with
  | [] => none
  | b :: _ => some ⟨.streamDecoder, (BitVec.ofBool s.pairPending ++ bitOfMode s.mode ++ b).setWidth 17⟩

/-- The word that a drive puts on a unit's inputs; none where the drive operates no unit or the unit has nothing to pop. -/
def State.drivenWord (s : State) (d : Drive) : Option OpWord :=
  match d with
  | .nibble v => some ⟨.encoderBlock, (truncNibble v).setWidth 17⟩
  | .frame v => some ⟨.decoderBlock, (truncFrame v).setWidth 17⟩
  | .codewords l h => some ⟨.forwardPort, (bitOfMode s.mode ++ l ++ h).setWidth 17⟩
  | .pair b0 b1 => some ⟨.inversePort, (bitOfMode s.mode ++ b0 ++ b1).setWidth 17⟩
  | .encodeTurn => s.encoderWord
  | .decodeTurn => s.decoderWord
  | .rst => some ⟨.resetInput, 1#17⟩
  | .deliverEnc _ => none
  | .deliverDec _ => none
  | .takeEnc => none
  | .takeDec => none
  | .idle => none

/-- What a drive does besides operating a unit: the environment appends to the input streams and consumes from the output
streams (20_memory.md R48); a unit whose pop is not enabled waits (R41). -/
def State.environment (s : State) (d : Drive) : State :=
  match d with
  | .deliverEnc b => s.withEnc (s.encIn ++ [b]) s.encOut
  | .deliverDec b => s.withDec (s.decIn ++ [b]) s.decOut
  | .takeEnc => s.withEnc s.encIn s.encOut.tail
  | .takeDec => s.withDec s.decIn s.decOut.tail
  | .nibble _ => s
  | .frame _ => s
  | .codewords _ _ => s
  | .pair _ _ => s
  | .encodeTurn => s
  | .decodeTurn => s
  | .rst => s
  | .idle => s

/-- The drive of the coming step. With nothing scheduled the paths run by themselves: the encode path while it has input,
then the decode path (log entry 5; the two paths commute, R48). -/
def State.nextDrive (s : State) : Drive :=
  match s.schedule with
  | d :: _ => d
  | [] => if s.encIn.isEmpty then .decodeTurn else .encodeTurn

/-- The state in which the coming step's operation runs: its drive is taken off the schedule. -/
def State.advance (s : State) : State := s.withSchedule s.schedule.tail

/-- The word of the coming step. -/
def State.nextWord (s : State) : Option OpWord := s.drivenWord s.nextDrive

/-! ### Setting up an operation as the next one -/

/-- The state in which the coming step runs operation `i`: the drive at the head of the schedule, and on a stream unit the
byte at the head of its input stream and the selector inputs as the operation word has them. -/
def State.drive (s : State) (i : Instr) : State :=
  match i with
  | .encn n => { s with schedule := .nibble n.toNat :: s.schedule }
  | .decn f => { s with schedule := .frame f.toNat :: s.schedule }
  | .cat l h => { s with mode := .concatenated, schedule := .codewords l h :: s.schedule }
  | .ilv l h => { s with mode := .interleaved, schedule := .codewords l h :: s.schedule }
  | .dcat b0 b1 => { s with mode := .concatenated, schedule := .pair b0 b1 :: s.schedule }
  | .dilv b0 b1 => { s with mode := .interleaved, schedule := .pair b0 b1 :: s.schedule }
  | .encb m b => { s with mode := m, encIn := b :: s.encIn, schedule := .encodeTurn :: s.schedule }
  | .decb0 m b =>
    { s with mode := m, pairPending := false, decIn := b :: s.decIn, schedule := .decodeTurn :: s.schedule }
  | .decb1 m b =>
    { s with mode := m, pairPending := true, decIn := b :: s.decIn, schedule := .decodeTurn :: s.schedule }
  | .reset => { s with schedule := .rst :: s.schedule }

end Sys2Proof.Machine
end

