-- ==== Sys2Proof/Machine/Step.lean ====
section
/-! DEFINITION. One step: one transaction of a unit, or one move of the environment (00_scope.md R7, 20_memory.md R48). -/

namespace Sys2Proof.Machine

/-- Decodes an operation word and runs the operation. -/
def runWord (w : OpWord) (s : State) : Result :=
  match decode w with
  | .ok i => exec i s
  | .error e => .refused (.illegalWord e)

/-- One step: the coming drive is taken off the schedule; where it puts a word on a unit's inputs that operation runs, and
otherwise the environment's move is made. -/
def step (s : State) : Host.Outcome State Fault Refusal :=
  match s.nextWord with
  | some w => runWord w s.advance
  | none => .next (s.advance.environment s.nextDrive)

/-- The state whose next step runs the operation of a number of the opcode table. It stands for the environment's driving
the unit with that word; a number that is no operation changes nothing. -/
def State.withFetchWord (s : State) (nbits w : Nat) : State :=
  match decodeTableWord nbits w with
  | some i => s.drive i
  | none => s

end Sys2Proof.Machine
end

