-- ==== Sys2Proof/Machine/Link.lean ====
section
/-! DEFINITION. The whole-stream functions of 43_stream_layer.md R154, the source's nibble functions (30_encoding.md R75), and
the channel of 20_memory.md R51, which is no part of the hardware and stands here for the laws about a link. -/

namespace Sys2Proof.Machine

/-- `encode_nibble(x)` is `ENCN trunc_4(x)` (R75). -/
def encodeNibble (x : Nat) : Codeword := encn (truncNibble x)

/-- `decode_nibble(x)` is the nibble of `DECN trunc_8(x)` (R75). -/
def decodeNibble (x : Nat) : Nibble := (decn (truncFrame x)).1

/-- `encode_stream(MODE, s)` (R154). -/
def encodeStream (m : Mode) : List Byte → List Byte
  | [] => []
  | b :: rest => (encodeByte m b).1 :: (encodeByte m b).2 :: encodeStream m rest

/-- The bytes that the decode path emits for a stream: one for each whole pair, none for an unpaired last byte (R157). -/
def decodePairs (m : Mode) : List Byte → List Byte
  | b0 :: b1 :: rest => decodePair m b0 b1 :: decodePairs m rest
  | [_] => []
  | [] => []

/-- `decode_stream(MODE, t)`, "not defined" for an odd length (R154). -/
def decodeStream (m : Mode) (t : List Byte) : Option (List Byte) :=
  if t.length % 2 = 0 then some (decodePairs m t) else none

/-- The channel: each byte exclusive-ored with its error mask, none lost, inserted or reordered (R51). -/
def channel (sent errors : List Byte) : List Byte := List.zipWith (· ^^^ ·) sent errors

/-- The number of 1 bits of a 7-bit value: how many bits of a codeword an error mask inverts. -/
def ones (c : Codeword) : Nat := (List.range 7).countP fun i => c.getLsbD i

/-- Each of the two codewords of a pair suffers at most one bit error under the masks `e0`, `e1` (42_bit_interleaver.md R137). -/
def correctable (m : Mode) (e0 e1 : Byte) : Bool := ones (inverse m e0 e1).1 ≤ 1 && ones (inverse m e0 e1).2 ≤ 1

/-- Every pair of a stream of error masks is correctable. -/
def allCorrectable (m : Mode) : List Byte → Bool
  | e0 :: e1 :: rest => correctable m e0 e1 && allCorrectable m rest
  | [_] => true
  | [] => true

/-- The bytes that the environment is still to append to `ENC_IN`. -/
def deliveriesEnc : List Drive → List Byte
  | [] => []
  | .deliverEnc b :: ds => b :: deliveriesEnc ds
  | _ :: ds => deliveriesEnc ds

/-- The bytes that the environment is still to append to `DEC_IN`. -/
def deliveriesDec : List Drive → List Byte
  | [] => []
  | .deliverDec b :: ds => b :: deliveriesDec ds
  | _ :: ds => deliveriesDec ds

/-- The byte of `DEC_IN` that is popped and not yet decoded: `pair_hold` while `pair_pending = 1` (10_state.md R24). -/
def State.heldByte (s : State) : List Byte :=
  match s.pairPending with
  | true => [s.pairHold]
  | false => []

/-- A 7-bit value is a valid codeword when its parity bits satisfy the equations for its own data bits (30_encoding.md R61). -/
def validCodeword (c : Codeword) : Bool :=
  c.getLsbD 6 == (c.getLsbD 4 ^^ c.getLsbD 2 ^^ c.getLsbD 0) && c.getLsbD 5 == (c.getLsbD 4 ^^ c.getLsbD 1 ^^ c.getLsbD 0) &&
    c.getLsbD 3 == (c.getLsbD 2 ^^ c.getLsbD 1 ^^ c.getLsbD 0)

end Sys2Proof.Machine
end

