-- ==== Sys2Proof/Safety.lean ====
section
/-! DEFINITION. What counts as a finished run, what counts as stuck, and the invariant of the machine's own state. -/

namespace Sys2Proof.Machine

/-- A run of the stream encoder is complete once `ENC_IN` is empty and nothing more will come (43_stream_layer.md R157). -/
def State.encodeComplete (s : State) : Bool := s.encIn.isEmpty && (deliveriesEnc s.schedule).isEmpty

/-- A run of the stream decoder is complete once `DEC_IN` is empty, nothing more will come, and `pair_pending = 0` (R157).
DESIGN CHOICE (log entry 13): the test is of one state and knows no history. R157 says of a run that came to the end of its input
with `pair_pending = 1` that it "never will be" complete; once RESET has taken the machine out of that state, this test answers
true of the state it left. -/
def State.decodeComplete (s : State) : Bool := s.decIn.isEmpty && (deliveriesDec s.schedule).isEmpty && !s.pairPending

/-- The stuck end of an odd-length decode stream (R157, 60_exceptions.md R172): not complete, and nothing but RESET
is enabled. A test of one state as well (log entry 13): after RESET it answers false. -/
def State.decodeStuck (s : State) : Bool := s.decIn.isEmpty && (deliveriesDec s.schedule).isEmpty && s.pairPending

/-- The blocks are combinational: each output port carries its block's function of the block's input ports, the
interleaver's under the instance's `MODE` (R100, R110, R119, R130). -/
def State.portsCombinational (s : State) : Prop :=
  s.ports.codewordOut = encn s.ports.nibbleIn ∧
  (s.ports.nibbleOut, s.ports.syndromeOut) = decn s.ports.frameIn ∧
  (s.ports.byte0Out, s.ports.byte1Out) = forward s.mode s.ports.loCwIn s.ports.hiCwIn ∧
  (s.ports.loCwOut, s.ports.hiCwOut) = inverse s.mode s.ports.byte0In s.ports.byte1In

end Sys2Proof.Machine
end

