-- ==== Sys2Proof/Certificates/Slice0/Obligations.lean ====
section
/-! DEFINITION. The statements about the codec. Each docstring names the rule of spec/ it formalises; where a clause rests on a
choice of the model's, the docstring names the log entry. -/

open Sys2Proof Sys2Proof.Machine

/-! ### Operation words -/

/-- 30_encoding.md R69, on words written out from the spec: the data of each operation's worked example, and words of the
programs P1, P2 and P7 of 95_test_vectors.md. -/
def Obligations.SpecWordsDecode : Prop :=
  decode ⟨.encoderBlock, 0b1010#17⟩ = .ok (.encn 0xA#4) ∧
  decode ⟨.decoderBlock, 0b10010100#17⟩ = .ok (.decn 0x94#8) ∧
  decode ⟨.forwardPort, 0b001001011011010#17⟩ = .ok (.cat 0x25#7 0x5A#7) ∧
  decode ⟨.forwardPort, 0b101001011011010#17⟩ = .ok (.ilv 0x25#7 0x5A#7) ∧
  decode ⟨.inversePort, 0b00100101101101000#17⟩ = .ok (.dcat 0x4B#8 0x68#8) ∧
  decode ⟨.inversePort, 0b10110010110011000#17⟩ = .ok (.dilv 0x65#8 0x98#8) ∧
  decode ⟨.streamEncoder, 0b010100101#17⟩ = .ok (.encb .concatenated 0xA5#8) ∧
  decode ⟨.streamEncoder, 0b110100101#17⟩ = .ok (.encb .interleaved 0xA5#8) ∧
  decode ⟨.streamDecoder, 0b0101100100#17⟩ = .ok (.decb0 .interleaved 0x64#8) ∧
  decode ⟨.streamDecoder, 0b1100011000#17⟩ = .ok (.decb1 .interleaved 0x18#8) ∧
  decode ⟨.streamDecoder, 0b1001101000#17⟩ = .ok (.decb1 .concatenated 0x68#8) ∧
  decode ⟨.resetInput, 0b1#17⟩ = .ok .reset

/-- R69: the encoder drops no bit of any operation's word. -/
def Obligations.DecodeOfEncode : Prop := ∀ i : Instr, decode (encode i) = .ok i

/-- R69: an operation has one word, so a word that decodes is the encoding of what it decodes to. -/
def Obligations.EncodeOfDecode : Prop := ∀ (w : OpWord) (i : Instr), decode w = .ok i → encode i = w

/-- R69: "Every combination of selector bits of every unit selects exactly one operation; there is no unassigned combination."
A well-formed word meets exactly one row of its unit and decodes to that row's operation. That any other word (a bit above the unit's width,
the reset unit's word 0) is refused by a named error is the model's (log entry 12). -/
def Obligations.EachWordSelectsOneOperation : Prop :=
  ∀ w : OpWord,
    (w.wellFormed = true → ∃ (i : Instr) (r : OpRow),
      decode w = .ok i ∧ opTable.filter (fun r => r.selects w) = [r] ∧ r.mnemonic = i.mnemonic ∧ r.unit = i.unit) ∧
    (w.wellFormed = false → ∃ e : DecodeError, decode w = .error e)

/-- 10_state.md R22, 30_encoding.md R69, 42_bit_interleaver.md R130: which operation a unit performs is fixed by the unit that
is driven, by `MODE`, and for the stream decoder by `pair_pending`; its operands are the unit's own inputs. The drives are the
model's (log entry 5). -/
def Obligations.UnitInputsSelectOperation : Prop :=
  ∀ s : State,
    (∀ v : Nat, ∃ w, s.drivenWord (.nibble v) = some w ∧ decode w = .ok (.encn (BitVec.ofNat 4 v))) ∧
    (∀ v : Nat, ∃ w, s.drivenWord (.frame v) = some w ∧ decode w = .ok (.decn (BitVec.ofNat 8 v))) ∧
    (∀ l h : Codeword, ∃ w, s.drivenWord (.codewords l h) = some w ∧
      (s.mode = .concatenated → decode w = .ok (.cat l h)) ∧ (s.mode = .interleaved → decode w = .ok (.ilv l h))) ∧
    (∀ b0 b1 : Byte, ∃ w, s.drivenWord (.pair b0 b1) = some w ∧
      (s.mode = .concatenated → decode w = .ok (.dcat b0 b1)) ∧ (s.mode = .interleaved → decode w = .ok (.dilv b0 b1))) ∧
    (∀ (b : Byte) (rest : List Byte), s.encIn = b :: rest →
      ∃ w, s.drivenWord .encodeTurn = some w ∧ decode w = .ok (.encb s.mode b)) ∧
    (∀ (b : Byte) (rest : List Byte), s.decIn = b :: rest → ∃ w, s.drivenWord .decodeTurn = some w ∧
      (s.pairPending = false → decode w = .ok (.decb0 s.mode b)) ∧ (s.pairPending = true → decode w = .ok (.decb1 s.mode b))) ∧
    (∃ w, s.drivenWord .rst = some w ∧ decode w = .ok .reset)

/-! ### Steps -/

/-- A step runs the decoded operation: where the coming word decodes to `i`, the step is `exec i` in the state whose
schedule has moved past the drive. That a step takes its drive from `schedule` is the model's (log entry 5). -/
def Obligations.StepRunsDecodedOperation : Prop :=
  ∀ (s : State) (w : OpWord) (i : Instr), s.nextWord = some w → decode w = .ok i →
    step s = exec i { s with schedule := s.schedule.tail }

/-- An operation set up as the next one is what the next step runs, and a number of the opcode table sets up the operation
the decoder reads from it. The set-up is the model's (log entries 9 and 10). -/
def Obligations.DrivenOperationRuns : Prop :=
  (∀ (s : State) (i : Instr), step (s.drive i) = exec i { s.drive i with schedule := s.schedule }) ∧
  (∀ (s : State) (nbits w : Nat) (i : Instr), decodeTableWord nbits w = some i →
    step (s.withFetchWord nbits w) = exec i { s.drive i with schedule := s.schedule })

/-- 60_exceptions.md R170, R175: "Every transaction either completes as its rule says or is not enabled." No step of any
state stops, neither by a fault nor by a refusal (a unit that waits answers a next state: log entry 6). -/
def Obligations.StepNeverStops : Prop := ∀ s : State, ∃ t : State, step s = .next t

/-- 20_memory.md R41, R48, R198: the environment appends at an input stream's tail, consumes at an output stream's head, or
lets time pass, and touches nothing else. That these are drives of the schedule is the model's (log entry 5), and so is that
a take from an empty output stream changes nothing but the schedule (log entry 11). -/
def Obligations.EnvironmentMoves : Prop :=
  ∀ (s : State) (b : Byte) (ds : List Drive),
    (s.schedule = .deliverEnc b :: ds → step s = .next { s with encIn := s.encIn ++ [b], schedule := ds }) ∧
    (s.schedule = .deliverDec b :: ds → step s = .next { s with decIn := s.decIn ++ [b], schedule := ds }) ∧
    (s.schedule = .takeEnc :: ds → step s = .next { s with encOut := s.encOut.tail, schedule := ds }) ∧
    (s.schedule = .takeDec :: ds → step s = .next { s with decOut := s.decOut.tail, schedule := ds }) ∧
    (s.schedule = .idle :: ds → step s = .next { s with schedule := ds })

/-- 20_memory.md R41: "An operation whose StreamPop is not enabled has no step: the unit waits". That a wait is a next state
in which nothing has changed but the schedule is the model's (log entry 6). -/
def Obligations.UnitsWaitOnEmptyStreams : Prop :=
  ∀ (s : State) (b : Byte) (ds : List Drive),
    (s.encIn = [] → exec (.encb s.mode b) s = .next s) ∧
    (s.decIn = [] → ∀ m : Mode, s.pairPending = false → exec (.decb0 m b) s = .next s) ∧
    (s.decIn = [] → s.pairPending = true → exec (.decb1 s.mode b) s = .next s) ∧
    (s.encIn = [] → s.schedule = .encodeTurn :: ds → step s = .next { s with schedule := ds }) ∧
    (s.decIn = [] → s.schedule = .decodeTurn :: ds → step s = .next { s with schedule := ds }) ∧
    (s.encIn = [] → s.decIn = [] → s.schedule = [] → step s = .next s)

/-- 93_implementation_defined.md U8 (`refuse`), 43_stream_layer.md R152, R153: where an operation stops. The refusals are the
model's (log entry 7); no step comes to one. -/
def Obligations.MisselectedOperationsRefused : Prop :=
  ∀ s : State,
    (s.mode = .interleaved →
      (∀ l h, exec (.cat l h) s = .refused .modeChanged) ∧ (∀ b0 b1, exec (.dcat b0 b1) s = .refused .modeChanged)) ∧
    (s.mode = .concatenated →
      (∀ l h, exec (.ilv l h) s = .refused .modeChanged) ∧ (∀ b0 b1, exec (.dilv b0 b1) s = .refused .modeChanged)) ∧
    (∀ m b, s.mode ≠ m → exec (.encb m b) s = .refused .modeChanged ∧ exec (.decb1 m b) s = .refused .modeChanged) ∧
    (∀ m b, s.pairPending = true → exec (.decb0 m b) s = .refused .notSelected) ∧
    (∀ b, s.pairPending = false → exec (.decb1 s.mode b) s = .refused .notSelected) ∧
    (∀ b x rest, s.encIn = x :: rest → x ≠ b → exec (.encb s.mode b) s = .refused .operandNotAtHead) ∧
    (∀ m b x rest, s.decIn = x :: rest → x ≠ b → s.pairPending = false →
      exec (.decb0 m b) s = .refused .operandNotAtHead) ∧
    (∀ b x rest, s.decIn = x :: rest → x ≠ b → s.pairPending = true →
      exec (.decb1 s.mode b) s = .refused .operandNotAtHead)

/-! ### The codeword blocks -/

/-- 40_hamming_74_encoder.md R101: ENCN's word, its result bit by bit, its corner cases and worked example, and that it
writes nothing but the encoder block's two ports. That the ports stand in the state, and that a wide bus is a drive of the
schedule, is the model's (log entries 4 and 5). -/
def Obligations.EncnResult : Prop :=
  (∀ (n : Nibble) (s : State), ∃ c : Codeword,
    decode ⟨.encoderBlock, n.setWidth 17⟩ = .ok (.encn n) ∧
    exec (.encn n) s = .next { s with ports := { s.ports with nibbleIn := n, codewordOut := c } } ∧
    c.getLsbD 6 = (n.getLsbD 3 ^^ n.getLsbD 2 ^^ n.getLsbD 0) ∧
    c.getLsbD 5 = (n.getLsbD 3 ^^ n.getLsbD 1 ^^ n.getLsbD 0) ∧
    c.getLsbD 4 = n.getLsbD 3 ∧
    c.getLsbD 3 = (n.getLsbD 2 ^^ n.getLsbD 1 ^^ n.getLsbD 0) ∧
    c.getLsbD 2 = n.getLsbD 2 ∧ c.getLsbD 1 = n.getLsbD 1 ∧ c.getLsbD 0 = n.getLsbD 0 ∧
    (n = 0x0#4 → c = 0x00#7) ∧ (n = 0xF#4 → c = 0x7F#7) ∧ (n = 0xA#4 → c = 0x5A#7)) ∧
  (∀ (s : State) (ds : List Drive), s.schedule = .nibble 0x1A :: ds →
    step s = exec (.encn 0xA#4) { s with schedule := ds })

/-- 30_encoding.md R68: "if a wider value is passed, only the low 4 bits are used (truncation, not an error)"; the decoder
likewise uses the low 8 bits. So it is of the source's functions of R75, and two bus values with the same low bits give the
same step. That a bus value is a drive of the schedule is the model's (log entry 5). -/
def Obligations.WideInputsTruncated : Prop :=
  ∀ v : Nat,
    encodeNibble v = encn (BitVec.ofNat 4 v) ∧ encodeNibble v = encodeNibble (v % 16) ∧
    decodeNibble v = (decn (BitVec.ofNat 8 v)).1 ∧ decodeNibble v = decodeNibble (v % 256) ∧
    ∀ (s : State) (ds : List Drive),
      (s.schedule = .nibble v :: ds →
        step s = exec (.encn (BitVec.ofNat 4 v)) { s with schedule := ds } ∧
        step s = step { s with schedule := .nibble (v % 16) :: ds }) ∧
      (s.schedule = .frame v :: ds →
        step s = exec (.decn (BitVec.ofNat 8 v)) { s with schedule := ds } ∧
        step s = step { s with schedule := .frame (v % 256) :: ds })

/-- 30_encoding.md R70: the 16 valid codewords, the encoder's whole truth table, each with its data bits, its parity bits
`p1 p2 p3`, its codeword and its frame with p4 = 0. -/
def Obligations.CodewordTable : Prop :=
  [(0x0#4, 0b0000#4, 0b000#3, 0x00#7, 0x00#8), (0x1#4, 0b0001#4, 0b111#3, 0x69#7, 0xD2#8),
   (0x2#4, 0b0010#4, 0b011#3, 0x2A#7, 0x54#8), (0x3#4, 0b0011#4, 0b100#3, 0x43#7, 0x86#8),
   (0x4#4, 0b0100#4, 0b101#3, 0x4C#7, 0x98#8), (0x5#4, 0b0101#4, 0b010#3, 0x25#7, 0x4A#8),
   (0x6#4, 0b0110#4, 0b110#3, 0x66#7, 0xCC#8), (0x7#4, 0b0111#4, 0b001#3, 0x0F#7, 0x1E#8),
   (0x8#4, 0b1000#4, 0b110#3, 0x70#7, 0xE0#8), (0x9#4, 0b1001#4, 0b001#3, 0x19#7, 0x32#8),
   (0xA#4, 0b1010#4, 0b101#3, 0x5A#7, 0xB4#8), (0xB#4, 0b1011#4, 0b010#3, 0x33#7, 0x66#8),
   (0xC#4, 0b1100#4, 0b011#3, 0x3C#7, 0x78#8), (0xD#4, 0b1101#4, 0b100#3, 0x55#7, 0xAA#8),
   (0xE#4, 0b1110#4, 0b000#3, 0x16#7, 0x2C#8), (0xF#4, 0b1111#4, 0b111#3, 0x7F#7, 0xFE#8)].all
    (fun row => encn row.1 = row.2.2.2.1 && row.1 = row.2.1 && validCodeword row.2.2.2.1 &&
      bits3 (row.2.2.2.1.getLsbD 6) (row.2.2.2.1.getLsbD 5) (row.2.2.2.1.getLsbD 3) = row.2.2.1 &&
      (row.2.2.2.1 ++ 0#1 : BitVec 8) = row.2.2.2.2) = true

/-- R102: recomputing parity from the data bits of an encoded nibble reproduces `p1 p2 p3`; equivalently the syndrome of its
frame is 0 for either value of p4. -/
def Obligations.ParityRecomputes : Prop :=
  ∀ n : Nibble,
    (encn n).getLsbD 6 = ((encn n).getLsbD 4 ^^ (encn n).getLsbD 2 ^^ (encn n).getLsbD 0) ∧
    (encn n).getLsbD 5 = ((encn n).getLsbD 4 ^^ (encn n).getLsbD 1 ^^ (encn n).getLsbD 0) ∧
    (encn n).getLsbD 3 = ((encn n).getLsbD 2 ^^ (encn n).getLsbD 1 ^^ (encn n).getLsbD 0) ∧
    ∀ x : BitVec 1, syndrome (encn n ++ x) = 0#3

/-- R103, 41_hamming_74_decoder_syndrome.md R120: ENCN is linear, a codeword is the exclusive-or of the rows 1110000, 1001100,
0101010, 1101001 of its data bits, and the column of position `k` of the check matrix is `k` in binary. -/
def Obligations.EncnIsLinear : Prop :=
  (∀ a b : Nibble, encn (a ^^^ b) = encn a ^^^ encn b) ∧ encn 0#4 = 0#7 ∧
  (∀ n : Nibble, encn n =
    (if n.getLsbD 3 then 0b1110000#7 else 0#7) ^^^ (if n.getLsbD 2 then 0b1001100#7 else 0#7) ^^^
    (if n.getLsbD 1 then 0b0101010#7 else 0#7) ^^^ (if n.getLsbD 0 then 0b1101001#7 else 0#7)) ∧
  (∀ k : Nat, 1 ≤ k → k ≤ 7 → syndrome (1#8 <<< (8 - k)) = BitVec.ofNat 3 k)

/-- R104: ENCN is injective; two distinct valid codewords differ in at least 3 bits, and 0x00 and 0x2A in exactly 3; every
7-bit value is a valid codeword (16 of them) or differs from exactly one valid codeword in exactly one bit (112 of them). -/
def Obligations.CodeDistanceAndCovering : Prop :=
  (∀ a b : Nibble, encn a = encn b → a = b) ∧
  (∀ a b : Nibble, a ≠ b → 3 ≤ ones (encn a ^^^ encn b)) ∧
  (∃ a b : Nibble, encn a = 0x00#7 ∧ encn b = 0x2A#7 ∧ ones (encn a ^^^ encn b) = 3) ∧
  (∀ c : Codeword, ∃ n : Nibble, ones (c ^^^ encn n) ≤ 1 ∧ (ones (c ^^^ encn n) = 0 ↔ validCodeword c = true) ∧
    ∀ k : Nibble, ones (c ^^^ encn k) ≤ 1 → k = n) ∧
  ((List.range 128).countP fun v => validCodeword (BitVec.ofNat 7 v)) = 16

/-- 41_hamming_74_decoder_syndrome.md R112, R113, R114: DECN's three steps bit by bit on every frame, and that it writes
nothing but the decoder block's three ports. `g` is the corrected frame: the one bit of index `8 - v` is inverted. The
worked example is R111's. That the ports stand in the state is the model's (log entry 4). -/
def Obligations.DecnResult : Prop :=
  ∀ (f : Frame) (s : State), ∃ (n : Nibble) (v : Syndrome) (g : Frame),
    decode ⟨.decoderBlock, f.setWidth 17⟩ = .ok (.decn f) ∧
    exec (.decn f) s = .next { s with ports := { s.ports with frameIn := f, nibbleOut := n, syndromeOut := v } } ∧
    v.getLsbD 0 = (f.getLsbD 7 ^^ f.getLsbD 5 ^^ f.getLsbD 3 ^^ f.getLsbD 1) ∧
    v.getLsbD 1 = (f.getLsbD 6 ^^ f.getLsbD 5 ^^ f.getLsbD 2 ^^ f.getLsbD 1) ∧
    v.getLsbD 2 = (f.getLsbD 4 ^^ f.getLsbD 3 ^^ f.getLsbD 2 ^^ f.getLsbD 1) ∧
    (v = 0#3 ↔ f.getLsbD 7 = (f.getLsbD 5 ^^ f.getLsbD 3 ^^ f.getLsbD 1) ∧
      f.getLsbD 6 = (f.getLsbD 5 ^^ f.getLsbD 2 ^^ f.getLsbD 1) ∧
      f.getLsbD 4 = (f.getLsbD 3 ^^ f.getLsbD 2 ^^ f.getLsbD 1)) ∧
    (∀ i : Nat, i < 8 → g.getLsbD i = (f.getLsbD i ^^ decide (v ≠ 0#3 ∧ i = 8 - v.toNat))) ∧
    g.getLsbD 0 = f.getLsbD 0 ∧
    n.getLsbD 3 = g.getLsbD 5 ∧ n.getLsbD 2 = g.getLsbD 3 ∧ n.getLsbD 1 = g.getLsbD 2 ∧ n.getLsbD 0 = g.getLsbD 1 ∧
    (f = 0x94#8 → n = 0xA#4 ∧ v = 3#3 ∧ g = 0xB4#8)

/-- R116: p4 is ignored, in the nibble and in the syndrome: DECN is "a function of the 7-bit value `F[7:1]` alone". -/
def Obligations.FourthParitySlotIgnored : Prop :=
  (∀ f : Frame, decn f = decn (f ^^^ 0b00000001#8)) ∧
  (∀ f g : Frame, f.extractLsb' 1 7 = g.extractLsb' 1 7 → decn f = decn g)

/-- R118: the five laws of DECN against ENCN: round trip, single-bit correction, nearest codeword, two errors always
miscorrected, and the syndrome linear with `Syndrome(bit(k)) = k`. -/
def Obligations.DecnLawsAgainstEncn : Prop :=
  (∀ (n : Nibble) (x : BitVec 1), decn (encn n ++ x) = (n, 0#3)) ∧
  (∀ (n : Nibble) (x : BitVec 1) (k : Nat), 1 ≤ k → k ≤ 7 →
    decn ((encn n ++ x) ^^^ (1#8 <<< (8 - k))) = (n, BitVec.ofNat 3 k)) ∧
  (∀ f : Frame, ones (f.extractLsb' 1 7 ^^^ encn (decn f).1) ≤ 1 ∧
    (correct f (syndrome f)).extractLsb' 1 7 = encn (decn f).1 ∧
    ∀ k : Nibble, ones (f.extractLsb' 1 7 ^^^ encn k) ≤ 1 → k = (decn f).1) ∧
  (∀ (n : Nibble) (x : BitVec 1) (j k : Nat), 1 ≤ j → j ≤ 7 → 1 ≤ k → k ≤ 7 → j ≠ k →
    (decn ((encn n ++ x) ^^^ (1#8 <<< (8 - j)) ^^^ (1#8 <<< (8 - k)))).1 ≠ n ∧
    (decn ((encn n ++ x) ^^^ (1#8 <<< (8 - j)) ^^^ (1#8 <<< (8 - k)))).2 = BitVec.ofNat 3 j ^^^ BitVec.ofNat 3 k ∧
    BitVec.ofNat 3 j ^^^ BitVec.ofNat 3 k ≠ 0#3 ∧ BitVec.ofNat 3 j ^^^ BitVec.ofNat 3 k ≠ BitVec.ofNat 3 j ∧
    BitVec.ofNat 3 j ^^^ BitVec.ofNat 3 k ≠ BitVec.ofNat 3 k) ∧
  (∀ a b : Frame, syndrome (a ^^^ b) = syndrome a ^^^ syndrome b) ∧
  (∀ k : Nat, 1 ≤ k → k ≤ 7 → syndrome (1#8 <<< (8 - k)) = BitVec.ofNat 3 k)

/-- 60_exceptions.md R171: "decode always completes and returns a nibble value, which may be incorrect; no signal is raised".
With two or more of a codeword's bits in error DECN completes with a nibble that is not the one sent, and that nibble is the
one of the nearest valid codeword; with at most one it is the nibble sent. The ports are the model's (log entry 4). -/
def Obligations.UncorrectableCodewordCompletes : Prop :=
  ∀ (n : Nibble) (e : Codeword) (x : BitVec 1) (s : State), ∃ t : State,
    exec (.decn ((encn n ^^^ e) ++ x)) s = .next t ∧
    (t.ports.nibbleOut = n ↔ ones e ≤ 1) ∧ ones (encn t.ports.nibbleOut ^^^ encn n ^^^ e) ≤ 1

/-- 70_reset_and_hazards.md R196: a codeword wired right-aligned to the frame port decodes right for 0x0, 0x7 and 0xF alone
(so the source's functions do not invert each other without the shift); wired as `{codeword, x}` it always does; and nothing
carried in p4 or in the pad bits is delivered. -/
def Obligations.FrameAlignmentHazard : Prop :=
  (∀ n : Nibble, (decn ((encn n).setWidth 8)).1 = n ↔ n = 0x0#4 ∨ n = 0x7#4 ∨ n = 0xF#4) ∧
  (∀ n : Nibble, decodeNibble (encodeNibble n.toNat).toNat = n ↔ n = 0x0#4 ∨ n = 0x7#4 ∨ n = 0xF#4) ∧
  (∀ (n : Nibble) (x : BitVec 1), (decn (encn n ++ x)).1 = n) ∧
  (∀ (c : Codeword) (x y : BitVec 1), decn (c ++ x) = decn (c ++ y)) ∧
  (∀ (m : Mode) (b0 b1 pad : Byte), pad.toNat < 4 → decodePair m b0 (b1 ^^^ pad) = decodePair m b0 b1)

/-! ### The interleaver block -/

/-- 42_bit_interleaver.md R131: CAT's word, its pair as one 16-bit value and with shifts, its corner cases and worked example,
for every two 7-bit values, on an instance whose `MODE` is CONCATENATED; nothing but the forward port is written (ports: log
entry 4). -/
def Obligations.CatResult : Prop :=
  ∀ (l h : Codeword) (s : State), s.mode = .concatenated → ∃ b0 b1 : Byte,
    decode ⟨.forwardPort, (0#1 ++ l ++ h).setWidth 17⟩ = .ok (.cat l h) ∧
    exec (.cat l h) s =
      .next { s with ports := { s.ports with loCwIn := l, hiCwIn := h, byte0Out := b0, byte1Out := b1 } } ∧
    (b0 ++ b1 : BitVec 16) = (l ++ h ++ 0b00#2 : BitVec 16) ∧
    b0 = (l.setWidth 8 <<< 1) ||| (h.setWidth 8 >>> 6) ∧ b1 = (h.setWidth 8 &&& 0x3F#8) <<< 2 ∧
    b1.extractLsb' 0 2 = 0b00#2 ∧
    (l = 0x00#7 → h = 0x00#7 → b0 = 0x00#8 ∧ b1 = 0x00#8) ∧ (l = 0x7F#7 → h = 0x7F#7 → b0 = 0xFF#8 ∧ b1 = 0xFC#8) ∧
    (l = 0x25#7 → h = 0x5A#7 → b0 = 0x4B#8 ∧ b1 = 0x68#8)

/-- R132: ILV, likewise: `W[15-2j] = L[6-j]`, `W[14-2j] = H[6-j]`, `W[1:0] = 0`, on an instance whose `MODE` is INTERLEAVED
(ports: log entry 4). -/
def Obligations.IlvResult : Prop :=
  ∀ (l h : Codeword) (s : State), s.mode = .interleaved → ∃ b0 b1 : Byte,
    decode ⟨.forwardPort, (1#1 ++ l ++ h).setWidth 17⟩ = .ok (.ilv l h) ∧
    exec (.ilv l h) s =
      .next { s with ports := { s.ports with loCwIn := l, hiCwIn := h, byte0Out := b0, byte1Out := b1 } } ∧
    (∀ j : Nat, j < 7 → (b0 ++ b1 : BitVec 16).getLsbD (15 - 2 * j) = l.getLsbD (6 - j) ∧
      (b0 ++ b1 : BitVec 16).getLsbD (14 - 2 * j) = h.getLsbD (6 - j)) ∧
    b1.extractLsb' 0 2 = 0b00#2 ∧
    (l = 0x00#7 → h = 0x00#7 → b0 = 0x00#8 ∧ b1 = 0x00#8) ∧ (l = 0x7F#7 → h = 0x7F#7 → b0 = 0xFF#8 ∧ b1 = 0xFC#8) ∧
    (l = 0x7F#7 → h = 0x00#7 → b0 = 0xAA#8 ∧ b1 = 0xA8#8) ∧ (l = 0x00#7 → h = 0x7F#7 → b0 = 0x55#8 ∧ b1 = 0x54#8) ∧
    (l = 0x25#7 → h = 0x5A#7 → b0 = 0x65#8 ∧ b1 = 0x98#8)

/-- R133: DCAT: `L = byte0[7:1]`, `H = {byte0[0], byte1[7:2]}`, for every two bytes, whatever the pad bits
(ports: log entry 4). -/
def Obligations.DcatResult : Prop :=
  ∀ (b0 b1 : Byte) (s : State), s.mode = .concatenated → ∃ l h : Codeword,
    decode ⟨.inversePort, (0#1 ++ b0 ++ b1).setWidth 17⟩ = .ok (.dcat b0 b1) ∧
    exec (.dcat b0 b1) s =
      .next { s with ports := { s.ports with byte0In := b0, byte1In := b1, loCwOut := l, hiCwOut := h } } ∧
    l = (b0 ++ b1 : BitVec 16).extractLsb' 9 7 ∧ h = (b0 ++ b1 : BitVec 16).extractLsb' 2 7 ∧
    l = b0.extractLsb' 1 7 ∧ h = b0.extractLsb' 0 1 ++ b1.extractLsb' 2 6 ∧
    (b0 = 0x4B#8 → b1 = 0x68#8 → l = 0x25#7 ∧ h = 0x5A#7)

/-- R134: DILV: `L[6-j] = W[15-2j]`, `H[6-j] = W[14-2j]`, for every two bytes, whatever the pad bits (ports: log
entry 4). -/
def Obligations.DilvResult : Prop :=
  ∀ (b0 b1 : Byte) (s : State), s.mode = .interleaved → ∃ l h : Codeword,
    decode ⟨.inversePort, (1#1 ++ b0 ++ b1).setWidth 17⟩ = .ok (.dilv b0 b1) ∧
    exec (.dilv b0 b1) s =
      .next { s with ports := { s.ports with byte0In := b0, byte1In := b1, loCwOut := l, hiCwOut := h } } ∧
    (∀ j : Nat, j < 7 → l.getLsbD (6 - j) = (b0 ++ b1 : BitVec 16).getLsbD (15 - 2 * j) ∧
      h.getLsbD (6 - j) = (b0 ++ b1 : BitVec 16).getLsbD (14 - 2 * j)) ∧
    (b0 = 0x65#8 → b1 = 0x98#8 → l = 0x25#7 ∧ h = 0x5A#7)

/-- R135: the inverse laws of the two layouts, the pair with its pad cleared on the way back, and linearity over exclusive-or
of all four operations. -/
def Obligations.InterleaverInverseLaws : Prop :=
  (∀ l h : Codeword, dcat (cat l h).1 (cat l h).2 = (l, h) ∧ dilv (ilv l h).1 (ilv l h).2 = (l, h)) ∧
  (∀ b0 b1 : Byte,
    ((cat (dcat b0 b1).1 (dcat b0 b1).2).1 ++ (cat (dcat b0 b1).1 (dcat b0 b1).2).2 : BitVec 16) =
      (b0 ++ b1 : BitVec 16) &&& 0xFFFC#16 ∧
    ((ilv (dilv b0 b1).1 (dilv b0 b1).2).1 ++ (ilv (dilv b0 b1).1 (dilv b0 b1).2).2 : BitVec 16) =
      (b0 ++ b1 : BitVec 16) &&& 0xFFFC#16) ∧
  (∀ l h a b : Codeword,
    ilv (l ^^^ a) (h ^^^ b) = ((ilv l h).1 ^^^ (ilv a b).1, (ilv l h).2 ^^^ (ilv a b).2) ∧
    cat (l ^^^ a) (h ^^^ b) = ((cat l h).1 ^^^ (cat a b).1, (cat l h).2 ^^^ (cat a b).2)) ∧
  (∀ b0 b1 e0 e1 : Byte,
    dcat (b0 ^^^ e0) (b1 ^^^ e1) = ((dcat b0 b1).1 ^^^ (dcat e0 e1).1, (dcat b0 b1).2 ^^^ (dcat e0 e1).2) ∧
    dilv (b0 ^^^ e0) (b1 ^^^ e1) = ((dilv b0 b1).1 ^^^ (dilv e0 e1).1, (dilv b0 b1).2 ^^^ (dilv e0 e1).2))

/-- R136: an encoder always sends zero pad bits in both layouts; the received pad bits have no effect on what the decoder
recovers, neither on its codewords nor on the byte DECB1 emits. -/
def Obligations.PadBitsZeroAndIgnored : Prop :=
  (∀ (m : Mode) (l h : Codeword), (forward m l h).2.extractLsb' 0 2 = 0b00#2) ∧
  (∀ (m : Mode) (b : Byte), (encodeByte m b).2.extractLsb' 0 2 = 0b00#2) ∧
  (∀ (m : Mode) (b0 b1 pad : Byte), pad.toNat < 4 →
    inverse m b0 (b1 ^^^ pad) = inverse m b0 b1 ∧ decodePair m b0 (b1 ^^^ pad) = decodePair m b0 b1)

/-- R137 (a): in both modes a pair decodes to the byte sent exactly when the error mask inverts at most one bit of each of its
two codewords; errors on the pad bits never matter. -/
def Obligations.PairRecoveredExactlyWhenCorrectable : Prop :=
  ∀ (m : Mode) (b e0 e1 : Byte),
    decodePair m ((encodeByte m b).1 ^^^ e0) ((encodeByte m b).2 ^^^ e1) = b ↔ correctable m e0 e1 = true

/-- R137 (b), (c), (d): what interleaving buys. `E` is the error mask on the 16 bits of a pair. In (d)
a byte is inverted as a whole; none is dropped. -/
def Obligations.BurstErrors : Prop :=
  (∀ (b : Byte) (E : Pair) (i : Nat), (∀ j : Nat, E.getLsbD j = true → j = i ∨ j = i + 1) →
    decodePair .interleaved ((encodeByte .interleaved b).1 ^^^ E.extractLsb' 8 8)
      ((encodeByte .interleaved b).2 ^^^ E.extractLsb' 0 8) = b) ∧
  (∀ (b : Byte) (i : Nat), i < 16 →
    decodePair .concatenated ((encodeByte .concatenated b).1 ^^^ (1#16 <<< i).extractLsb' 8 8)
      ((encodeByte .concatenated b).2 ^^^ (1#16 <<< i).extractLsb' 0 8) = b) ∧
  (∀ (b : Byte) (i : Nat), i < 15 →
    (decodePair .concatenated ((encodeByte .concatenated b).1 ^^^ (3#16 <<< i).extractLsb' 8 8)
      ((encodeByte .concatenated b).2 ^^^ (3#16 <<< i).extractLsb' 0 8) = b ↔ i = 8 ∨ i ≤ 1)) ∧
  (∀ (m : Mode) (b : Byte),
    decodePair m ((encodeByte m b).1 ^^^ 0xFF#8) (encodeByte m b).2 ≠ b ∧
    decodePair m (encodeByte m b).1 ((encodeByte m b).2 ^^^ 0xFF#8) ≠ b) ∧
  decodePair .interleaved ((encodeByte .interleaved 0xA5#8).1 ^^^ 0xE0#8) (encodeByte .interleaved 0xA5#8).2 = 0xAD#8 ∧
  decodePair .concatenated ((encodeByte .concatenated 0xA5#8).1 ^^^ 0xC0#8) (encodeByte .concatenated 0xA5#8).2 = 0xAD#8

/-- R138: a pair of one layout decoded under the other. Six byte values survive on each path; 0xA5 becomes 0x49 and 0x6B. -/
def Obligations.ModeMismatchSurvivors : Prop :=
  (∀ b : Byte, decodePair .interleaved (encodeByte .concatenated b).1 (encodeByte .concatenated b).2 = b ↔
    b ∈ [0x00#8, 0x08#8, 0x1F#8, 0xE0#8, 0xF7#8, 0xFF#8]) ∧
  (∀ b : Byte, decodePair .concatenated (encodeByte .interleaved b).1 (encodeByte .interleaved b).2 = b ↔
    b ∈ [0x00#8, 0x1C#8, 0x1F#8, 0xE0#8, 0xE3#8, 0xFF#8]) ∧
  decodePair .interleaved (encodeByte .concatenated 0xA5#8).1 (encodeByte .concatenated 0xA5#8).2 = 0x49#8 ∧
  decodePair .concatenated (encodeByte .interleaved 0xA5#8).1 (encodeByte .interleaved 0xA5#8).2 = 0x6B#8

/-! ### The stream layer -/

/-- 43_stream_layer.md R151: ENCB pops one byte and pushes its two output bytes in order, under either `MODE`, for every byte,
with the rule's corner cases and worked example; nothing else changes. -/
def Obligations.EncbResult : Prop :=
  ∀ (b : Byte) (rest : List Byte) (s : State), s.encIn = b :: rest → ∃ b0 b1 : Byte,
    decode ⟨.streamEncoder, (bitOfMode s.mode ++ b).setWidth 17⟩ = .ok (.encb s.mode b) ∧
    exec (.encb s.mode b) s = .next { s with encIn := rest, encOut := s.encOut ++ [b0, b1] } ∧
    (s.mode = .interleaved → (b0, b1) = ilv (encn (b.extractLsb' 0 4)) (encn (b.extractLsb' 4 4))) ∧
    (s.mode = .concatenated → (b0, b1) = cat (encn (b.extractLsb' 0 4)) (encn (b.extractLsb' 4 4))) ∧
    b1.extractLsb' 0 2 = 0b00#2 ∧
    (b = 0x00#8 → b0 = 0x00#8 ∧ b1 = 0x00#8) ∧ (b = 0xFF#8 → b0 = 0xFF#8 ∧ b1 = 0xFC#8) ∧
    (b = 0xA5#8 → s.mode = .concatenated → b0 = 0x4B#8 ∧ b1 = 0x68#8) ∧
    (b = 0xA5#8 → s.mode = .interleaved → b0 = 0x65#8 ∧ b1 = 0x98#8)

/-- R152: DECB0 pops one byte, holds it and sets `pair_pending`; `MODE` is not consulted, so it does so under any mode bit of
its word; nothing else changes. -/
def Obligations.Decb0Result : Prop :=
  ∀ (m : Mode) (b : Byte) (rest : List Byte) (s : State), s.pairPending = false → s.decIn = b :: rest →
    decode ⟨.streamDecoder, (0#1 ++ bitOfMode m ++ b).setWidth 17⟩ = .ok (.decb0 m b) ∧
    exec (.decb0 m b) s = .next { s with decIn := rest, pairHold := b, pairPending := true }

/-- R153: DECB1 pops the second byte of the pair, corrects the two codewords independently, pushes one byte with the high
codeword's nibble on top, and clears `pair_pending`; nothing else changes, `pair_hold` keeps its value. Each half of the byte
is the nibble `k` exactly when its own codeword has at most one bit in error against `k`'s; neither the frames' p4 slot nor
the received pad bits can be told apart. -/
def Obligations.Decb1Result : Prop :=
  ∀ (b : Byte) (rest : List Byte) (s : State), s.pairPending = true → s.decIn = b :: rest →
    ∃ (l h : Codeword) (lo hi : Nibble),
      decode ⟨.streamDecoder, (1#1 ++ bitOfMode s.mode ++ b).setWidth 17⟩ = .ok (.decb1 s.mode b) ∧
      exec (.decb1 s.mode b) s =
        .next { s with decIn := rest, decOut := s.decOut ++ [(hi ++ lo : BitVec 8)], pairPending := false } ∧
      (s.mode = .interleaved → (l, h) = dilv s.pairHold b) ∧ (s.mode = .concatenated → (l, h) = dcat s.pairHold b) ∧
      (∀ x : BitVec 1, lo = (decn (l ++ x)).1 ∧ hi = (decn (h ++ x)).1) ∧
      (∀ k : Nibble, (lo = k ↔ ones (l ^^^ encn k) ≤ 1) ∧ (hi = k ↔ ones (h ^^^ encn k) ≤ 1)) ∧
      (∀ pad : Byte, pad.toNat < 4 → (hi ++ lo : BitVec 8) = decodePair s.mode s.pairHold (b ^^^ pad)) ∧
      (s.mode = .concatenated → s.pairHold = 0x4B#8 → b = 0x68#8 → (hi ++ lo : BitVec 8) = 0xA5#8)

/-- 20_memory.md R44: which stream each operation moves bytes of. A stream operation pops one byte, ENCB pushes two adjacent
bytes, DECB0 none and DECB1 one, or its unit waits and nothing changes (log entry 6); no other operation touches a stream. -/
def Obligations.StreamsMovedByEachOperation : Prop :=
  ∀ (i : Instr) (s t : State), exec i s = .next t →
    match i with
    | .encb _ b => t.decIn = s.decIn ∧ t.decOut = s.decOut ∧
        ((s.encIn = [] ∧ t = s) ∨
          ∃ rest b0 b1, s.encIn = b :: rest ∧ t.encIn = rest ∧ t.encOut = s.encOut ++ [b0, b1])
    | .decb0 _ b => t.encIn = s.encIn ∧ t.encOut = s.encOut ∧
        ((s.decIn = [] ∧ t = s) ∨ ∃ rest, s.decIn = b :: rest ∧ t.decIn = rest ∧ t.decOut = s.decOut)
    | .decb1 _ b => t.encIn = s.encIn ∧ t.encOut = s.encOut ∧
        ((s.decIn = [] ∧ t = s) ∨ ∃ rest o, s.decIn = b :: rest ∧ t.decIn = rest ∧ t.decOut = s.decOut ++ [o])
    | _ => t.encIn = s.encIn ∧ t.encOut = s.encOut ∧ t.decIn = s.decIn ∧ t.decOut = s.decOut

/-- 10_state.md R23, R24: DECB0 sets `pair_pending` and writes `pair_hold`, DECB1 and RESET clear `pair_pending`, and no other
operation writes either; nor does a move of the environment. -/
def Obligations.PairStateWriters : Prop :=
  (∀ (i : Instr) (s t : State), exec i s = .next t →
    (t.pairPending = s.pairPending ∧ t.pairHold = s.pairHold) ∨
    (∃ m b, i = .decb0 m b ∧ s.pairPending = false ∧ t.pairPending = true ∧ t.pairHold = b) ∨
    (∃ m b, i = .decb1 m b ∧ s.pairPending = true ∧ t.pairPending = false ∧ t.pairHold = s.pairHold) ∨
    (i = .reset ∧ t.pairPending = false)) ∧
  (∀ s t : State, s.nextWord = none → step s = .next t → t.pairPending = s.pairPending ∧ t.pairHold = s.pairHold)

/-- 10_state.md R26, 70_reset_and_hazards.md R192: `MODE` is "read-only at run time": no step writes it. -/
def Obligations.ModeConstantAlongRuns : Prop :=
  ∀ (k : Nat) (s t : State), Host.Core.run Sys2Proof.core k s = .next t → t.mode = s.mode

/-- 70_reset_and_hazards.md R190: RESET clears `pair_pending` at any time and leaves `MODE`, the streams and the blocks alone;
the next byte the decoder takes is the first of a pair. Of `pair_hold` nothing is said: it is unspecified. -/
def Obligations.ResetResult : Prop :=
  decode ⟨.resetInput, 1#17⟩ = .ok .reset ∧
  ∀ s : State, ∃ (hold : Byte) (count : Nat),
    exec .reset s = .next { s with pairPending := false, pairHold := hold, freeCount := count } ∧
    ∀ (t : State) (b : Byte) (rest : List Byte), exec .reset s = .next t → t.decIn = b :: rest →
      ∃ w, t.drivenWord .decodeTurn = some w ∧ decode w = .ok (.decb0 t.mode b)

/-- 70_reset_and_hazards.md R195: RESET between a DECB0 and its DECB1 discards the held byte, and the byte that follows is taken
as the first of a pair; DECB1 and then RESET decodes and emits the pair as without RESET, and of that state RESET changes
nothing but the dead `pair_hold` (`freeCount` is the model's own); RESET un-emits no byte. -/
def Obligations.ResetInTheMiddleOfAPair : Prop :=
  (∀ (s : State) (m m' : Mode) (b0 b1 : Byte) (rest : List Byte), s.pairPending = false → s.decIn = b0 :: b1 :: rest →
    ∃ (t u : State) (count : Nat), exec (.decb0 m b0) s = .next t ∧ exec .reset t = .next u ∧
      exec (.decb0 m' b1) u = .next { s with decIn := rest, pairPending := true, pairHold := b1, freeCount := count }) ∧
  (∀ (s : State) (b1 : Byte) (rest : List Byte), s.pairPending = true → s.decIn = b1 :: rest →
    ∃ (t : State) (hold : Byte) (count : Nat), exec (.decb1 s.mode b1) s = .next t ∧ t.pairPending = false ∧
      t.decOut = s.decOut ++ [decodePair s.mode s.pairHold b1] ∧
      exec .reset t = .next { t with pairHold := hold, freeCount := count }) ∧
  (∀ s t : State, exec .reset s = .next t → t.decOut = s.decOut ∧ t.encOut = s.encOut)

/-- 10_state.md R20, R30, 70_reset_and_hazards.md R191: after reset and at launch `pair_pending = 0`, the output streams are
empty, the input streams are the caller's, and `MODE` is the instance's parameter. The model's
own are: that the instance's parameter is Config.mode (log entry 1), the zero ports (4), the empty schedule (5), and that
`State.reset` is the launch with empty input streams (10), where the spec has them given by the launch. -/
def Obligations.ResetStateValues : Prop :=
  State.reset.pairPending = false ∧ State.reset.encOut = [] ∧ State.reset.decOut = [] ∧ State.reset.encIn = [] ∧
  State.reset.decIn = [] ∧ State.reset.mode = Config.mode ∧ State.reset.schedule = [] ∧ State.reset.ports = Ports.zero ∧
  ∀ (m : Mode) (e d : List Byte), (State.launch m e d).pairPending = false ∧ (State.launch m e d).encIn = e ∧
    (State.launch m e d).decIn = d ∧ (State.launch m e d).encOut = [] ∧ (State.launch m e d).decOut = [] ∧
    (State.launch m e d).mode = m

/-! ### Invariants and runs -/

/-- R100, R110, R119, R130: the blocks are combinational. In every state whose output ports carry the blocks' functions of the
input ports, and after every step from it, they do. That the ports are held in the state is the model's (log entry 4). -/
def Obligations.StepKeepsPortsCombinational : Prop :=
  ∀ s t : State, s.portsCombinational → step s = .next t → t.portsCombinational

/-- The reset state meets the invariant of `StepKeepsPortsCombinational`, whichever layout the instance has. -/
def Obligations.ResetPortsCombinational : Prop :=
  State.reset.portsCombinational ∧ ∀ (m : Mode) (e d : List Byte), (State.launch m e d).portsCombinational

/-- 10_state.md R20, R25: a block's result carries nothing from one transaction to the next. Two states that differ in the
blocks' ports alone step alike, in everything but the ports (that the ports are held at all is the model's, log entry 4). -/
def Obligations.PortsCarryNothingForward : Prop :=
  ∀ (k : Nat) (s : State) (p : Ports), ∃ (t : State) (q : Ports),
    Host.Core.run Sys2Proof.core k s = .next t ∧ Host.Core.run Sys2Proof.core k { s with ports := p } = .next { t with ports := q }

/-- 10_state.md R24: the unspecified value of `pair_hold` is never observed. Two runs from states that differ in `pair_hold`
alone, with `pair_pending = 0`, stay equal in everything but `pair_hold`, and in `pair_hold` too while `pair_pending = 1`. -/
def Obligations.UnspecifiedHoldNeverObserved : Prop :=
  ∀ (k : Nat) (s : State) (hold : Byte), s.pairPending = false → ∃ (t : State) (hold' : Byte),
    Host.Core.run Sys2Proof.core k s = .next t ∧
    Host.Core.run Sys2Proof.core k { s with pairHold := hold } = .next { t with pairHold := hold' } ∧
    (t.pairPending = true → hold' = t.pairHold)

/-- 20_memory.md R48, 60_exceptions.md R174: transactions of the two paths commute, in every state. That a path's turn is a
drive of the schedule is the model's (log entry 5). -/
def Obligations.PathsCommute : Prop :=
  ∀ (s : State) (ds : List Drive), ∃ t : State,
    Host.Core.run Sys2Proof.core 2 { s with schedule := .encodeTurn :: .decodeTurn :: ds } = .next t ∧
    Host.Core.run Sys2Proof.core 2 { s with schedule := .decodeTurn :: .encodeTurn :: ds } = .next t

/-- 20_memory.md R46: along every run in which the environment consumes no output, what the encode path has emitted together
with what its input and the bytes still to be delivered will give is always the same stream: no byte is reordered, dropped or
emitted twice, whatever the decode path, the blocks, RESET and the environment do in between. The schedule is the
model's (log entry 5). -/
def Obligations.EncodePathConserved : Prop :=
  ∀ (k : Nat) (s t : State), Drive.takeEnc ∉ s.schedule → Host.Core.run Sys2Proof.core k s = .next t →
    t.encOut ++ encodeStream t.mode (t.encIn ++ deliveriesEnc t.schedule) =
      s.encOut ++ encodeStream s.mode (s.encIn ++ deliveriesEnc s.schedule)

/-- R46 for the decode path, along every run without RESET in which the environment consumes no output: the held byte, the
input and the bytes still to be delivered are paired in order. The schedule is the model's (log entry 5). -/
def Obligations.DecodePathConserved : Prop :=
  ∀ (k : Nat) (s t : State), Drive.takeDec ∉ s.schedule → Drive.rst ∉ s.schedule →
    Host.Core.run Sys2Proof.core k s = .next t →
    t.decOut ++ decodePairs t.mode (t.heldByte ++ t.decIn ++ deliveriesDec t.schedule) =
      s.decOut ++ decodePairs s.mode (s.heldByte ++ s.decIn ++ deliveriesDec s.schedule)

/-- R46: "Every execution of a path on a given input stream and `MODE` produces the same output stream". Two runs whose
schedules differ in every way but the bytes delivered, and that leave no input behind, end with the same output streams.
The schedule is the model's (log entry 5). -/
def Obligations.OutputIndependentOfInterleaving : Prop :=
  ∀ (k k' : Nat) (s s' t t' : State), s.mode = s'.mode →
    Host.Core.run Sys2Proof.core k s = .next t → Host.Core.run Sys2Proof.core k' s' = .next t' →
    (Drive.takeEnc ∉ s.schedule → Drive.takeEnc ∉ s'.schedule →
      s.encIn ++ deliveriesEnc s.schedule = s'.encIn ++ deliveriesEnc s'.schedule → s.encOut = s'.encOut →
      t.encIn ++ deliveriesEnc t.schedule = [] → t'.encIn ++ deliveriesEnc t'.schedule = [] → t.encOut = t'.encOut) ∧
    (Drive.takeDec ∉ s.schedule → Drive.takeDec ∉ s'.schedule → Drive.rst ∉ s.schedule → Drive.rst ∉ s'.schedule →
      s.heldByte ++ s.decIn ++ deliveriesDec s.schedule = s'.heldByte ++ s'.decIn ++ deliveriesDec s'.schedule →
      s.decOut = s'.decOut →
      t.decIn ++ deliveriesDec t.schedule = [] → t'.decIn ++ deliveriesDec t'.schedule = [] → t.decOut = t'.decOut)

/-- 43_stream_layer.md R154: the closed form of the two stream functions, element by element and in length, and that running
ENCB while `ENC_IN` is not empty, or DECB0 and DECB1 while `DEC_IN` is not empty, computes them and completes (R157);
`decode_stream` is not defined on an odd length. That a run with nothing scheduled takes the enabled transactions by itself is
the model's (log entry 5). -/
def Obligations.RunsComputeStreamFunctions : Prop :=
  (∀ (m : Mode) (bs : List Byte), (encodeStream m bs).length = 2 * bs.length ∧
    ∀ (i : Nat) (b : Byte), bs[i]? = some b →
      (encodeStream m bs)[2 * i]? = some (encodeByte m b).1 ∧ (encodeStream m bs)[2 * i + 1]? = some (encodeByte m b).2) ∧
  (∀ (m : Mode) (ts : List Byte), ts.length % 2 = 0 → ∃ out : List Byte,
    decodeStream m ts = some out ∧ 2 * out.length = ts.length ∧
    ∀ (i : Nat) (b0 b1 : Byte), ts[2 * i]? = some b0 → ts[2 * i + 1]? = some b1 →
      out[i]? = some (decodePair m b0 b1)) ∧
  (∀ (m : Mode) (ts : List Byte), ts.length % 2 = 1 → decodeStream m ts = none) ∧
  (∀ s : State, s.schedule = [] → ∃ t : State, Host.Core.run Sys2Proof.core s.encIn.length s = .next t ∧
    t = { s with encIn := [], encOut := s.encOut ++ encodeStream s.mode s.encIn } ∧ t.encodeComplete = true) ∧
  (∀ s : State, s.schedule = [] → s.encIn = [] → s.pairPending = false → s.decIn.length % 2 = 0 →
    ∃ (t : State) (hold : Byte) (out : List Byte), decodeStream s.mode s.decIn = some out ∧
      Host.Core.run Sys2Proof.core s.decIn.length s = .next t ∧
      t = { s with decIn := [], decOut := s.decOut ++ out, pairHold := hold } ∧ t.decodeComplete = true)

/-- 43_stream_layer.md R157, 60_exceptions.md R172, R176: a decode stream of odd length ends stuck: not complete, the unpaired
byte held, the bytes of the whole pairs emitted, and no step changes anything ever after, until one more byte arrives (taken as
the missing second byte) or RESET discards the held one. The schedule, and a wait that is a step, are the model's (log entries
5 and 6). -/
def Obligations.OddLengthDecodeIsStuck : Prop :=
  ∀ (s : State) (ts : List Byte) (last : Byte), s.schedule = [] → s.encIn = [] → s.pairPending = false →
    s.decIn = ts ++ [last] → ts.length % 2 = 0 → ∃ t : State,
      t = { s with decIn := [], decOut := s.decOut ++ decodePairs s.mode ts, pairPending := true, pairHold := last } ∧
      Host.Core.run Sys2Proof.core s.decIn.length s = .next t ∧
      t.decodeStuck = true ∧ t.decodeComplete = false ∧
      (∀ k : Nat, Host.Core.run Sys2Proof.core k t = .next t) ∧
      (∀ b : Byte, Host.Core.run Sys2Proof.core 2 { t with schedule := [.deliverDec b, .decodeTurn] } =
        .next { t with decOut := t.decOut ++ [decodePair t.mode last b], pairPending := false }) ∧
      (∃ (hold : Byte) (count : Nat), step { t with schedule := [.rst] } =
        .next { t with pairPending := false, pairHold := hold, freeCount := count })

/-- 43_stream_layer.md R155: the stream round trip for every byte sequence and each `MODE`; with a channel error mask it still
holds for every pair whose mask leaves at most one error in each codeword. -/
def Obligations.StreamRoundTrip : Prop :=
  (∀ (m : Mode) (bs : List Byte), decodeStream m (encodeStream m bs) = some bs) ∧
  (∀ (m : Mode) (bs es : List Byte), es.length = 2 * bs.length →
    ∃ out : List Byte, decodeStream m (channel (encodeStream m bs) es) = some out ∧ out.length = bs.length ∧
      ∀ (i : Nat) (e0 e1 : Byte), es[2 * i]? = some e0 → es[2 * i + 1]? = some e1 → correctable m e0 e1 = true →
        out[i]? = bs[i]?)

/-- R155 on the machine: a transmitter's run, the channel, and a receiver's run of the same `MODE` recover the bytes sent, and
the receiver's run is complete, wherever every pair's error mask is correctable. That the paths run by themselves where nothing
is scheduled is the model's (log entry 5). -/
def Obligations.LinkRecoversSentBytes : Prop :=
  ∀ (tx rx t : State) (es : List Byte), tx.mode = rx.mode → tx.schedule = [] → tx.encOut = [] → rx.schedule = [] →
    rx.encIn = [] → rx.pairPending = false → es.length = 2 * tx.encIn.length → allCorrectable tx.mode es = true →
    Host.Core.run Sys2Proof.core tx.encIn.length tx = .next t → rx.decIn = channel t.encOut es →
    ∃ u : State, Host.Core.run Sys2Proof.core rx.decIn.length rx = .next u ∧ u.decOut = rx.decOut ++ tx.encIn ∧
      u.decodeComplete = true

/-- 43_stream_layer.md R156: neither path looks ahead, and output is final as soon as its input is consumed, "whatever
follows". In every run without a take, what is added to `ENC_OUT` is the encoding of exactly the bytes popped, at most one a
step, whatever is left in `ENC_IN` or still to come; and what is added to `DEC_OUT`, in every run without a take and without
RESET, is the decoding of exactly the whole pairs popped. The two stream functions extend in the same way, on the decode path
at a pair boundary. The schedule is the model's (log entry 5). -/
def Obligations.OutputFinalOnceInputConsumed : Prop :=
  (∀ (k : Nat) (s t : State), Drive.takeEnc ∉ s.schedule → Host.Core.run Sys2Proof.core k s = .next t →
    ∃ popped : List Byte, popped.length ≤ k ∧
      s.encIn ++ deliveriesEnc s.schedule = popped ++ (t.encIn ++ deliveriesEnc t.schedule) ∧
      t.encOut = s.encOut ++ encodeStream s.mode popped) ∧
  (∀ (k : Nat) (s t : State), Drive.takeDec ∉ s.schedule → Drive.rst ∉ s.schedule →
    Host.Core.run Sys2Proof.core k s = .next t →
    ∃ popped : List Byte, popped.length % 2 = 0 ∧ popped.length + t.heldByte.length ≤ s.heldByte.length + k ∧
      s.heldByte ++ s.decIn ++ deliveriesDec s.schedule =
        popped ++ (t.heldByte ++ t.decIn ++ deliveriesDec t.schedule) ∧
      t.decOut = s.decOut ++ decodePairs s.mode popped) ∧
  (∀ (m : Mode) (as bs : List Byte), encodeStream m (as ++ bs) = encodeStream m as ++ encodeStream m bs) ∧
  (∀ (m : Mode) (as bs : List Byte), as.length % 2 = 0 → decodePairs m (as ++ bs) = decodePairs m as ++ decodePairs m bs)
end

