-- ==== Sys2Proof/Laws/Bits.lean ====
section
/-! SUPPORT. Fields of a concatenation, for every width: what the decoder's slices read of a word the encoder built. -/

namespace Sys2Proof.Bits

theorem low_of_append {a b : Nat} (x : BitVec a) (y : BitVec b) : (x ++ y).extractLsb' 0 b = y := by
  ext i hi
  simp [BitVec.getLsbD_append, hi]

theorem high_of_append {a b : Nat} (x : BitVec a) (y : BitVec b) : (x ++ y).extractLsb' b a = x := by
  ext i hi
  simp [BitVec.getLsbD_append, hi]

theorem middle_of_append {a b c : Nat} (x : BitVec a) (y : BitVec b) (z : BitVec c) :
    (x ++ y ++ z).extractLsb' c b = y := by
  ext i hi
  simp [BitVec.getLsbD_append, hi]

theorem slice_of_setWidth {w v k l : Nat} (x : BitVec w) (h : k + l ≤ v) :
    (x.setWidth v).extractLsb' k l = x.extractLsb' k l := by
  ext i hi
  simp only [BitVec.getElem_extractLsb', BitVec.getLsbD_setWidth]
  simp [show k + i < v by omega]

theorem all_of_setWidth {w v : Nat} (x : BitVec w) (h : w ≤ v) : (x.setWidth v).extractLsb' 0 w = x := by
  rw [slice_of_setWidth x (by omega)]
  simp

theorem top_of_two {b v k : Nat} (x : BitVec 1) (z : BitVec b) (hk : k = b) (hv : k < v) :
    ((x ++ z).setWidth v).getLsbD k = x.getLsbD 0 := by
  subst hk
  rw [BitVec.getLsbD_setWidth, BitVec.getLsbD_append]
  simp [hv]

theorem top_of_three {a b v k : Nat} (x : BitVec 1) (y : BitVec a) (z : BitVec b) (hk : k = b + a) (hv : k < v) :
    ((x ++ y ++ z).setWidth v).getLsbD k = x.getLsbD 0 := by
  subst hk
  rw [BitVec.getLsbD_setWidth, BitVec.getLsbD_append, BitVec.getLsbD_append]
  simp [hv]

theorem middle_bit_of_three {c b v k : Nat} (x : BitVec c) (y : BitVec 1) (z : BitVec b) (hk : k = b) (hv : k < v) :
    ((x ++ y ++ z).setWidth v).getLsbD k = y.getLsbD 0 := by
  subst hk
  rw [BitVec.getLsbD_setWidth, BitVec.getLsbD_append, BitVec.getLsbD_append]
  simp [hv]

end Sys2Proof.Bits
end

