-- ==== Sys2Proof/Laws/Blocks.lean ====
section
/-! SUPPORT. The bits of a concatenation of single bits, and the blocks' wire maps bit by bit. -/

namespace Sys2Proof.Machine

@[simp] theorem bits3_0 (b2 b1 b0 : Bool) : (bits3 b2 b1 b0).getLsbD 0 = b0 := by revert b2 b1 b0; decide
@[simp] theorem bits3_1 (b2 b1 b0 : Bool) : (bits3 b2 b1 b0).getLsbD 1 = b1 := by revert b2 b1 b0; decide
@[simp] theorem bits3_2 (b2 b1 b0 : Bool) : (bits3 b2 b1 b0).getLsbD 2 = b2 := by revert b2 b1 b0; decide

@[simp] theorem bits4_0 (b3 b2 b1 b0 : Bool) : (bits4 b3 b2 b1 b0).getLsbD 0 = b0 := by revert b3 b2 b1 b0; decide
@[simp] theorem bits4_1 (b3 b2 b1 b0 : Bool) : (bits4 b3 b2 b1 b0).getLsbD 1 = b1 := by revert b3 b2 b1 b0; decide
@[simp] theorem bits4_2 (b3 b2 b1 b0 : Bool) : (bits4 b3 b2 b1 b0).getLsbD 2 = b2 := by revert b3 b2 b1 b0; decide
@[simp] theorem bits4_3 (b3 b2 b1 b0 : Bool) : (bits4 b3 b2 b1 b0).getLsbD 3 = b3 := by revert b3 b2 b1 b0; decide

/-- All bits of `bits7` at once. -/
theorem bits7_getLsbD (b6 b5 b4 b3 b2 b1 b0 : Bool) :
    (bits7 b6 b5 b4 b3 b2 b1 b0).getLsbD 0 = b0 ∧ (bits7 b6 b5 b4 b3 b2 b1 b0).getLsbD 1 = b1 ∧
    (bits7 b6 b5 b4 b3 b2 b1 b0).getLsbD 2 = b2 ∧ (bits7 b6 b5 b4 b3 b2 b1 b0).getLsbD 3 = b3 ∧
    (bits7 b6 b5 b4 b3 b2 b1 b0).getLsbD 4 = b4 ∧ (bits7 b6 b5 b4 b3 b2 b1 b0).getLsbD 5 = b5 ∧
    (bits7 b6 b5 b4 b3 b2 b1 b0).getLsbD 6 = b6 := by
  cases b6 <;> cases b5 <;> cases b4 <;> cases b3 <;> revert b2 b1 b0 <;> decide

@[simp] theorem bits7_0 (b6 b5 b4 b3 b2 b1 b0 : Bool) : (bits7 b6 b5 b4 b3 b2 b1 b0).getLsbD 0 = b0 := (bits7_getLsbD ..).1
@[simp] theorem bits7_1 (b6 b5 b4 b3 b2 b1 b0 : Bool) : (bits7 b6 b5 b4 b3 b2 b1 b0).getLsbD 1 = b1 := (bits7_getLsbD ..).2.1
@[simp] theorem bits7_2 (b6 b5 b4 b3 b2 b1 b0 : Bool) : (bits7 b6 b5 b4 b3 b2 b1 b0).getLsbD 2 = b2 :=
  (bits7_getLsbD ..).2.2.1
@[simp] theorem bits7_3 (b6 b5 b4 b3 b2 b1 b0 : Bool) : (bits7 b6 b5 b4 b3 b2 b1 b0).getLsbD 3 = b3 :=
  (bits7_getLsbD ..).2.2.2.1
@[simp] theorem bits7_4 (b6 b5 b4 b3 b2 b1 b0 : Bool) : (bits7 b6 b5 b4 b3 b2 b1 b0).getLsbD 4 = b4 :=
  (bits7_getLsbD ..).2.2.2.2.1
@[simp] theorem bits7_5 (b6 b5 b4 b3 b2 b1 b0 : Bool) : (bits7 b6 b5 b4 b3 b2 b1 b0).getLsbD 5 = b5 :=
  (bits7_getLsbD ..).2.2.2.2.2.1
@[simp] theorem bits7_6 (b6 b5 b4 b3 b2 b1 b0 : Bool) : (bits7 b6 b5 b4 b3 b2 b1 b0).getLsbD 6 = b6 :=
  (bits7_getLsbD ..).2.2.2.2.2.2

/-- All bits of `bits8` at once. -/
theorem bits8_getLsbD (b7 b6 b5 b4 b3 b2 b1 b0 : Bool) :
    (bits8 b7 b6 b5 b4 b3 b2 b1 b0).getLsbD 0 = b0 ∧ (bits8 b7 b6 b5 b4 b3 b2 b1 b0).getLsbD 1 = b1 ∧
    (bits8 b7 b6 b5 b4 b3 b2 b1 b0).getLsbD 2 = b2 ∧ (bits8 b7 b6 b5 b4 b3 b2 b1 b0).getLsbD 3 = b3 ∧
    (bits8 b7 b6 b5 b4 b3 b2 b1 b0).getLsbD 4 = b4 ∧ (bits8 b7 b6 b5 b4 b3 b2 b1 b0).getLsbD 5 = b5 ∧
    (bits8 b7 b6 b5 b4 b3 b2 b1 b0).getLsbD 6 = b6 ∧ (bits8 b7 b6 b5 b4 b3 b2 b1 b0).getLsbD 7 = b7 := by
  cases b7 <;> cases b6 <;> cases b5 <;> cases b4 <;> cases b3 <;> revert b2 b1 b0 <;> decide

@[simp] theorem bits8_0 (b7 b6 b5 b4 b3 b2 b1 b0 : Bool) : (bits8 b7 b6 b5 b4 b3 b2 b1 b0).getLsbD 0 = b0 :=
  (bits8_getLsbD ..).1
@[simp] theorem bits8_1 (b7 b6 b5 b4 b3 b2 b1 b0 : Bool) : (bits8 b7 b6 b5 b4 b3 b2 b1 b0).getLsbD 1 = b1 :=
  (bits8_getLsbD ..).2.1
@[simp] theorem bits8_2 (b7 b6 b5 b4 b3 b2 b1 b0 : Bool) : (bits8 b7 b6 b5 b4 b3 b2 b1 b0).getLsbD 2 = b2 :=
  (bits8_getLsbD ..).2.2.1
@[simp] theorem bits8_3 (b7 b6 b5 b4 b3 b2 b1 b0 : Bool) : (bits8 b7 b6 b5 b4 b3 b2 b1 b0).getLsbD 3 = b3 :=
  (bits8_getLsbD ..).2.2.2.1
@[simp] theorem bits8_4 (b7 b6 b5 b4 b3 b2 b1 b0 : Bool) : (bits8 b7 b6 b5 b4 b3 b2 b1 b0).getLsbD 4 = b4 :=
  (bits8_getLsbD ..).2.2.2.2.1
@[simp] theorem bits8_5 (b7 b6 b5 b4 b3 b2 b1 b0 : Bool) : (bits8 b7 b6 b5 b4 b3 b2 b1 b0).getLsbD 5 = b5 :=
  (bits8_getLsbD ..).2.2.2.2.2.1
@[simp] theorem bits8_6 (b7 b6 b5 b4 b3 b2 b1 b0 : Bool) : (bits8 b7 b6 b5 b4 b3 b2 b1 b0).getLsbD 6 = b6 :=
  (bits8_getLsbD ..).2.2.2.2.2.2.1
@[simp] theorem bits8_7 (b7 b6 b5 b4 b3 b2 b1 b0 : Bool) : (bits8 b7 b6 b5 b4 b3 b2 b1 b0).getLsbD 7 = b7 :=
  (bits8_getLsbD ..).2.2.2.2.2.2.2

/-- Two 7-bit values are equal when their seven bits are. -/
theorem bits7_of_getLsbD (c : BitVec 7) :
    bits7 (c.getLsbD 6) (c.getLsbD 5) (c.getLsbD 4) (c.getLsbD 3) (c.getLsbD 2) (c.getLsbD 1) (c.getLsbD 0) = c := by
  apply BitVec.eq_of_getLsbD_eq
  intro i hi
  interval_cases i <;> simp only [bits7_0, bits7_1, bits7_2, bits7_3, bits7_4, bits7_5, bits7_6]

/-- A byte is the concatenation of its bits. -/
theorem bits8_of_getLsbD (b : BitVec 8) :
    bits8 (b.getLsbD 7) (b.getLsbD 6) (b.getLsbD 5) (b.getLsbD 4) (b.getLsbD 3) (b.getLsbD 2) (b.getLsbD 1)
      (b.getLsbD 0) = b := by
  apply BitVec.eq_of_getLsbD_eq
  intro i hi
  interval_cases i <;> simp only [bits8_0, bits8_1, bits8_2, bits8_3, bits8_4, bits8_5, bits8_6, bits8_7]

/-- Exclusive-or acts bit by bit. -/
theorem bits7_xor (a6 a5 a4 a3 a2 a1 a0 b6 b5 b4 b3 b2 b1 b0 : Bool) :
    bits7 a6 a5 a4 a3 a2 a1 a0 ^^^ bits7 b6 b5 b4 b3 b2 b1 b0 =
      bits7 (a6 ^^ b6) (a5 ^^ b5) (a4 ^^ b4) (a3 ^^ b3) (a2 ^^ b2) (a1 ^^ b1) (a0 ^^ b0) := by
  apply BitVec.eq_of_getLsbD_eq
  intro i hi
  interval_cases i <;>
    simp only [BitVec.getLsbD_xor, bits7_0, bits7_1, bits7_2, bits7_3, bits7_4, bits7_5, bits7_6]

/-- Exclusive-or acts bit by bit. -/
theorem bits8_xor (a7 a6 a5 a4 a3 a2 a1 a0 b7 b6 b5 b4 b3 b2 b1 b0 : Bool) :
    bits8 a7 a6 a5 a4 a3 a2 a1 a0 ^^^ bits8 b7 b6 b5 b4 b3 b2 b1 b0 =
      bits8 (a7 ^^ b7) (a6 ^^ b6) (a5 ^^ b5) (a4 ^^ b4) (a3 ^^ b3) (a2 ^^ b2) (a1 ^^ b1) (a0 ^^ b0) := by
  apply BitVec.eq_of_getLsbD_eq
  intro i hi
  interval_cases i <;>
    simp only [BitVec.getLsbD_xor, bits8_0, bits8_1, bits8_2, bits8_3, bits8_4, bits8_5, bits8_6, bits8_7]

/-- A byte is its two nibbles. -/
theorem byteOfNibbles_nibbles (b : Byte) : byteOfNibbles (msNibble b) (lsNibble b) = b := by
  revert b; decide

end Sys2Proof.Machine
end

