-- ==== Sys2Proof/Laws/State.lean ====
section
/-! SUPPORT. One lemma per field per update of the state and of the ports, so that no proof unfolds a record update, and the
plain values of the launch state. -/

namespace Sys2Proof.Machine

/-! ### `State.withPair` -/

@[simp] theorem State.withPair_mode (s : State) (p : Bool) (h : Byte) : (s.withPair p h).mode = s.mode := rfl
@[simp] theorem State.withPair_pairPending (s : State) (p : Bool) (h : Byte) : (s.withPair p h).pairPending = p := rfl
@[simp] theorem State.withPair_pairHold (s : State) (p : Bool) (h : Byte) : (s.withPair p h).pairHold = h := rfl
@[simp] theorem State.withPair_encIn (s : State) (p : Bool) (h : Byte) : (s.withPair p h).encIn = s.encIn := rfl
@[simp] theorem State.withPair_encOut (s : State) (p : Bool) (h : Byte) : (s.withPair p h).encOut = s.encOut := rfl
@[simp] theorem State.withPair_decIn (s : State) (p : Bool) (h : Byte) : (s.withPair p h).decIn = s.decIn := rfl
@[simp] theorem State.withPair_decOut (s : State) (p : Bool) (h : Byte) : (s.withPair p h).decOut = s.decOut := rfl
@[simp] theorem State.withPair_ports (s : State) (p : Bool) (h : Byte) : (s.withPair p h).ports = s.ports := rfl
@[simp] theorem State.withPair_freeCount (s : State) (p : Bool) (h : Byte) : (s.withPair p h).freeCount = s.freeCount := rfl
@[simp] theorem State.withPair_schedule (s : State) (p : Bool) (h : Byte) : (s.withPair p h).schedule = s.schedule := rfl

/-! ### `State.countFree` -/

@[simp] theorem State.countFree_mode (s : State) : (s.countFree).mode = s.mode := rfl
@[simp] theorem State.countFree_pairPending (s : State) : (s.countFree).pairPending = s.pairPending := rfl
@[simp] theorem State.countFree_pairHold (s : State) : (s.countFree).pairHold = s.pairHold := rfl
@[simp] theorem State.countFree_encIn (s : State) : (s.countFree).encIn = s.encIn := rfl
@[simp] theorem State.countFree_encOut (s : State) : (s.countFree).encOut = s.encOut := rfl
@[simp] theorem State.countFree_decIn (s : State) : (s.countFree).decIn = s.decIn := rfl
@[simp] theorem State.countFree_decOut (s : State) : (s.countFree).decOut = s.decOut := rfl
@[simp] theorem State.countFree_ports (s : State) : (s.countFree).ports = s.ports := rfl
@[simp] theorem State.countFree_freeCount (s : State) : (s.countFree).freeCount = s.freeCount + 1 := rfl
@[simp] theorem State.countFree_schedule (s : State) : (s.countFree).schedule = s.schedule := rfl

/-! ### `State.withEnc` -/

@[simp] theorem State.withEnc_mode (s : State) (i o : List Byte) : (s.withEnc i o).mode = s.mode := rfl
@[simp] theorem State.withEnc_pairPending (s : State) (i o : List Byte) : (s.withEnc i o).pairPending = s.pairPending := rfl
@[simp] theorem State.withEnc_pairHold (s : State) (i o : List Byte) : (s.withEnc i o).pairHold = s.pairHold := rfl
@[simp] theorem State.withEnc_encIn (s : State) (i o : List Byte) : (s.withEnc i o).encIn = i := rfl
@[simp] theorem State.withEnc_encOut (s : State) (i o : List Byte) : (s.withEnc i o).encOut = o := rfl
@[simp] theorem State.withEnc_decIn (s : State) (i o : List Byte) : (s.withEnc i o).decIn = s.decIn := rfl
@[simp] theorem State.withEnc_decOut (s : State) (i o : List Byte) : (s.withEnc i o).decOut = s.decOut := rfl
@[simp] theorem State.withEnc_ports (s : State) (i o : List Byte) : (s.withEnc i o).ports = s.ports := rfl
@[simp] theorem State.withEnc_freeCount (s : State) (i o : List Byte) : (s.withEnc i o).freeCount = s.freeCount := rfl
@[simp] theorem State.withEnc_schedule (s : State) (i o : List Byte) : (s.withEnc i o).schedule = s.schedule := rfl

/-! ### `State.withDec` -/

@[simp] theorem State.withDec_mode (s : State) (i o : List Byte) : (s.withDec i o).mode = s.mode := rfl
@[simp] theorem State.withDec_pairPending (s : State) (i o : List Byte) : (s.withDec i o).pairPending = s.pairPending := rfl
@[simp] theorem State.withDec_pairHold (s : State) (i o : List Byte) : (s.withDec i o).pairHold = s.pairHold := rfl
@[simp] theorem State.withDec_encIn (s : State) (i o : List Byte) : (s.withDec i o).encIn = s.encIn := rfl
@[simp] theorem State.withDec_encOut (s : State) (i o : List Byte) : (s.withDec i o).encOut = s.encOut := rfl
@[simp] theorem State.withDec_decIn (s : State) (i o : List Byte) : (s.withDec i o).decIn = i := rfl
@[simp] theorem State.withDec_decOut (s : State) (i o : List Byte) : (s.withDec i o).decOut = o := rfl
@[simp] theorem State.withDec_ports (s : State) (i o : List Byte) : (s.withDec i o).ports = s.ports := rfl
@[simp] theorem State.withDec_freeCount (s : State) (i o : List Byte) : (s.withDec i o).freeCount = s.freeCount := rfl
@[simp] theorem State.withDec_schedule (s : State) (i o : List Byte) : (s.withDec i o).schedule = s.schedule := rfl

/-! ### `State.withPorts` -/

@[simp] theorem State.withPorts_mode (s : State) (p : Ports) : (s.withPorts p).mode = s.mode := rfl
@[simp] theorem State.withPorts_pairPending (s : State) (p : Ports) : (s.withPorts p).pairPending = s.pairPending := rfl
@[simp] theorem State.withPorts_pairHold (s : State) (p : Ports) : (s.withPorts p).pairHold = s.pairHold := rfl
@[simp] theorem State.withPorts_encIn (s : State) (p : Ports) : (s.withPorts p).encIn = s.encIn := rfl
@[simp] theorem State.withPorts_encOut (s : State) (p : Ports) : (s.withPorts p).encOut = s.encOut := rfl
@[simp] theorem State.withPorts_decIn (s : State) (p : Ports) : (s.withPorts p).decIn = s.decIn := rfl
@[simp] theorem State.withPorts_decOut (s : State) (p : Ports) : (s.withPorts p).decOut = s.decOut := rfl
@[simp] theorem State.withPorts_ports (s : State) (p : Ports) : (s.withPorts p).ports = p := rfl
@[simp] theorem State.withPorts_freeCount (s : State) (p : Ports) : (s.withPorts p).freeCount = s.freeCount := rfl
@[simp] theorem State.withPorts_schedule (s : State) (p : Ports) : (s.withPorts p).schedule = s.schedule := rfl

/-! ### `State.withSchedule` -/

@[simp] theorem State.withSchedule_mode (s : State) (ds : List Drive) : (s.withSchedule ds).mode = s.mode := rfl
@[simp] theorem State.withSchedule_pairPending (s : State) (ds : List Drive) : (s.withSchedule ds).pairPending = s.pairPending := rfl
@[simp] theorem State.withSchedule_pairHold (s : State) (ds : List Drive) : (s.withSchedule ds).pairHold = s.pairHold := rfl
@[simp] theorem State.withSchedule_encIn (s : State) (ds : List Drive) : (s.withSchedule ds).encIn = s.encIn := rfl
@[simp] theorem State.withSchedule_encOut (s : State) (ds : List Drive) : (s.withSchedule ds).encOut = s.encOut := rfl
@[simp] theorem State.withSchedule_decIn (s : State) (ds : List Drive) : (s.withSchedule ds).decIn = s.decIn := rfl
@[simp] theorem State.withSchedule_decOut (s : State) (ds : List Drive) : (s.withSchedule ds).decOut = s.decOut := rfl
@[simp] theorem State.withSchedule_ports (s : State) (ds : List Drive) : (s.withSchedule ds).ports = s.ports := rfl
@[simp] theorem State.withSchedule_freeCount (s : State) (ds : List Drive) : (s.withSchedule ds).freeCount = s.freeCount := rfl
@[simp] theorem State.withSchedule_schedule (s : State) (ds : List Drive) : (s.withSchedule ds).schedule = ds := rfl

/-! ### `Ports.withEncoder` -/

@[simp] theorem Ports.withEncoder_nibbleIn (q : Ports) (n : Nibble) (c : Codeword) : (q.withEncoder n c).nibbleIn = n := rfl
@[simp] theorem Ports.withEncoder_codewordOut (q : Ports) (n : Nibble) (c : Codeword) : (q.withEncoder n c).codewordOut = c := rfl
@[simp] theorem Ports.withEncoder_frameIn (q : Ports) (n : Nibble) (c : Codeword) : (q.withEncoder n c).frameIn = q.frameIn := rfl
@[simp] theorem Ports.withEncoder_nibbleOut (q : Ports) (n : Nibble) (c : Codeword) : (q.withEncoder n c).nibbleOut = q.nibbleOut := rfl
@[simp] theorem Ports.withEncoder_syndromeOut (q : Ports) (n : Nibble) (c : Codeword) : (q.withEncoder n c).syndromeOut = q.syndromeOut := rfl
@[simp] theorem Ports.withEncoder_loCwIn (q : Ports) (n : Nibble) (c : Codeword) : (q.withEncoder n c).loCwIn = q.loCwIn := rfl
@[simp] theorem Ports.withEncoder_hiCwIn (q : Ports) (n : Nibble) (c : Codeword) : (q.withEncoder n c).hiCwIn = q.hiCwIn := rfl
@[simp] theorem Ports.withEncoder_byte0Out (q : Ports) (n : Nibble) (c : Codeword) : (q.withEncoder n c).byte0Out = q.byte0Out := rfl
@[simp] theorem Ports.withEncoder_byte1Out (q : Ports) (n : Nibble) (c : Codeword) : (q.withEncoder n c).byte1Out = q.byte1Out := rfl
@[simp] theorem Ports.withEncoder_byte0In (q : Ports) (n : Nibble) (c : Codeword) : (q.withEncoder n c).byte0In = q.byte0In := rfl
@[simp] theorem Ports.withEncoder_byte1In (q : Ports) (n : Nibble) (c : Codeword) : (q.withEncoder n c).byte1In = q.byte1In := rfl
@[simp] theorem Ports.withEncoder_loCwOut (q : Ports) (n : Nibble) (c : Codeword) : (q.withEncoder n c).loCwOut = q.loCwOut := rfl
@[simp] theorem Ports.withEncoder_hiCwOut (q : Ports) (n : Nibble) (c : Codeword) : (q.withEncoder n c).hiCwOut = q.hiCwOut := rfl

/-! ### `Ports.withDecoder` -/

@[simp] theorem Ports.withDecoder_nibbleIn (q : Ports) (f : Frame) (r : Nibble × Syndrome) : (q.withDecoder f r).nibbleIn = q.nibbleIn := rfl
@[simp] theorem Ports.withDecoder_codewordOut (q : Ports) (f : Frame) (r : Nibble × Syndrome) : (q.withDecoder f r).codewordOut = q.codewordOut := rfl
@[simp] theorem Ports.withDecoder_frameIn (q : Ports) (f : Frame) (r : Nibble × Syndrome) : (q.withDecoder f r).frameIn = f := rfl
@[simp] theorem Ports.withDecoder_nibbleOut (q : Ports) (f : Frame) (r : Nibble × Syndrome) : (q.withDecoder f r).nibbleOut = r.1 := rfl
@[simp] theorem Ports.withDecoder_syndromeOut (q : Ports) (f : Frame) (r : Nibble × Syndrome) : (q.withDecoder f r).syndromeOut = r.2 := rfl
@[simp] theorem Ports.withDecoder_loCwIn (q : Ports) (f : Frame) (r : Nibble × Syndrome) : (q.withDecoder f r).loCwIn = q.loCwIn := rfl
@[simp] theorem Ports.withDecoder_hiCwIn (q : Ports) (f : Frame) (r : Nibble × Syndrome) : (q.withDecoder f r).hiCwIn = q.hiCwIn := rfl
@[simp] theorem Ports.withDecoder_byte0Out (q : Ports) (f : Frame) (r : Nibble × Syndrome) : (q.withDecoder f r).byte0Out = q.byte0Out := rfl
@[simp] theorem Ports.withDecoder_byte1Out (q : Ports) (f : Frame) (r : Nibble × Syndrome) : (q.withDecoder f r).byte1Out = q.byte1Out := rfl
@[simp] theorem Ports.withDecoder_byte0In (q : Ports) (f : Frame) (r : Nibble × Syndrome) : (q.withDecoder f r).byte0In = q.byte0In := rfl
@[simp] theorem Ports.withDecoder_byte1In (q : Ports) (f : Frame) (r : Nibble × Syndrome) : (q.withDecoder f r).byte1In = q.byte1In := rfl
@[simp] theorem Ports.withDecoder_loCwOut (q : Ports) (f : Frame) (r : Nibble × Syndrome) : (q.withDecoder f r).loCwOut = q.loCwOut := rfl
@[simp] theorem Ports.withDecoder_hiCwOut (q : Ports) (f : Frame) (r : Nibble × Syndrome) : (q.withDecoder f r).hiCwOut = q.hiCwOut := rfl

/-! ### `Ports.withForward` -/

@[simp] theorem Ports.withForward_nibbleIn (q : Ports) (l h : Codeword) (r : Byte × Byte) : (q.withForward l h r).nibbleIn = q.nibbleIn := rfl
@[simp] theorem Ports.withForward_codewordOut (q : Ports) (l h : Codeword) (r : Byte × Byte) : (q.withForward l h r).codewordOut = q.codewordOut := rfl
@[simp] theorem Ports.withForward_frameIn (q : Ports) (l h : Codeword) (r : Byte × Byte) : (q.withForward l h r).frameIn = q.frameIn := rfl
@[simp] theorem Ports.withForward_nibbleOut (q : Ports) (l h : Codeword) (r : Byte × Byte) : (q.withForward l h r).nibbleOut = q.nibbleOut := rfl
@[simp] theorem Ports.withForward_syndromeOut (q : Ports) (l h : Codeword) (r : Byte × Byte) : (q.withForward l h r).syndromeOut = q.syndromeOut := rfl
@[simp] theorem Ports.withForward_loCwIn (q : Ports) (l h : Codeword) (r : Byte × Byte) : (q.withForward l h r).loCwIn = l := rfl
@[simp] theorem Ports.withForward_hiCwIn (q : Ports) (l h : Codeword) (r : Byte × Byte) : (q.withForward l h r).hiCwIn = h := rfl
@[simp] theorem Ports.withForward_byte0Out (q : Ports) (l h : Codeword) (r : Byte × Byte) : (q.withForward l h r).byte0Out = r.1 := rfl
@[simp] theorem Ports.withForward_byte1Out (q : Ports) (l h : Codeword) (r : Byte × Byte) : (q.withForward l h r).byte1Out = r.2 := rfl
@[simp] theorem Ports.withForward_byte0In (q : Ports) (l h : Codeword) (r : Byte × Byte) : (q.withForward l h r).byte0In = q.byte0In := rfl
@[simp] theorem Ports.withForward_byte1In (q : Ports) (l h : Codeword) (r : Byte × Byte) : (q.withForward l h r).byte1In = q.byte1In := rfl
@[simp] theorem Ports.withForward_loCwOut (q : Ports) (l h : Codeword) (r : Byte × Byte) : (q.withForward l h r).loCwOut = q.loCwOut := rfl
@[simp] theorem Ports.withForward_hiCwOut (q : Ports) (l h : Codeword) (r : Byte × Byte) : (q.withForward l h r).hiCwOut = q.hiCwOut := rfl

/-! ### `Ports.withInverse` -/

@[simp] theorem Ports.withInverse_nibbleIn (q : Ports) (b0 b1 : Byte) (r : Codeword × Codeword) : (q.withInverse b0 b1 r).nibbleIn = q.nibbleIn := rfl
@[simp] theorem Ports.withInverse_codewordOut (q : Ports) (b0 b1 : Byte) (r : Codeword × Codeword) : (q.withInverse b0 b1 r).codewordOut = q.codewordOut := rfl
@[simp] theorem Ports.withInverse_frameIn (q : Ports) (b0 b1 : Byte) (r : Codeword × Codeword) : (q.withInverse b0 b1 r).frameIn = q.frameIn := rfl
@[simp] theorem Ports.withInverse_nibbleOut (q : Ports) (b0 b1 : Byte) (r : Codeword × Codeword) : (q.withInverse b0 b1 r).nibbleOut = q.nibbleOut := rfl
@[simp] theorem Ports.withInverse_syndromeOut (q : Ports) (b0 b1 : Byte) (r : Codeword × Codeword) : (q.withInverse b0 b1 r).syndromeOut = q.syndromeOut := rfl
@[simp] theorem Ports.withInverse_loCwIn (q : Ports) (b0 b1 : Byte) (r : Codeword × Codeword) : (q.withInverse b0 b1 r).loCwIn = q.loCwIn := rfl
@[simp] theorem Ports.withInverse_hiCwIn (q : Ports) (b0 b1 : Byte) (r : Codeword × Codeword) : (q.withInverse b0 b1 r).hiCwIn = q.hiCwIn := rfl
@[simp] theorem Ports.withInverse_byte0Out (q : Ports) (b0 b1 : Byte) (r : Codeword × Codeword) : (q.withInverse b0 b1 r).byte0Out = q.byte0Out := rfl
@[simp] theorem Ports.withInverse_byte1Out (q : Ports) (b0 b1 : Byte) (r : Codeword × Codeword) : (q.withInverse b0 b1 r).byte1Out = q.byte1Out := rfl
@[simp] theorem Ports.withInverse_byte0In (q : Ports) (b0 b1 : Byte) (r : Codeword × Codeword) : (q.withInverse b0 b1 r).byte0In = b0 := rfl
@[simp] theorem Ports.withInverse_byte1In (q : Ports) (b0 b1 : Byte) (r : Codeword × Codeword) : (q.withInverse b0 b1 r).byte1In = b1 := rfl
@[simp] theorem Ports.withInverse_loCwOut (q : Ports) (b0 b1 : Byte) (r : Codeword × Codeword) : (q.withInverse b0 b1 r).loCwOut = r.1 := rfl
@[simp] theorem Ports.withInverse_hiCwOut (q : Ports) (b0 b1 : Byte) (r : Codeword × Codeword) : (q.withInverse b0 b1 r).hiCwOut = r.2 := rfl

/-! ### The composed writes -/

@[simp] theorem State.holdByte_mode (s : State) (b : Byte) : (s.holdByte b).mode = s.mode := rfl
@[simp] theorem State.holdByte_pairPending (s : State) (b : Byte) : (s.holdByte b).pairPending = true := rfl
@[simp] theorem State.holdByte_pairHold (s : State) (b : Byte) : (s.holdByte b).pairHold = b := rfl
@[simp] theorem State.holdByte_encIn (s : State) (b : Byte) : (s.holdByte b).encIn = s.encIn := rfl
@[simp] theorem State.holdByte_encOut (s : State) (b : Byte) : (s.holdByte b).encOut = s.encOut := rfl
@[simp] theorem State.holdByte_decIn (s : State) (b : Byte) : (s.holdByte b).decIn = s.decIn := rfl
@[simp] theorem State.holdByte_decOut (s : State) (b : Byte) : (s.holdByte b).decOut = s.decOut := rfl
@[simp] theorem State.holdByte_ports (s : State) (b : Byte) : (s.holdByte b).ports = s.ports := rfl
@[simp] theorem State.holdByte_freeCount (s : State) (b : Byte) : (s.holdByte b).freeCount = s.freeCount := rfl
@[simp] theorem State.holdByte_schedule (s : State) (b : Byte) : (s.holdByte b).schedule = s.schedule := rfl

@[simp] theorem State.clearPending_mode (s : State) : (s.clearPending).mode = s.mode := rfl
@[simp] theorem State.clearPending_pairPending (s : State) : (s.clearPending).pairPending = false := rfl
@[simp] theorem State.clearPending_pairHold (s : State) : (s.clearPending).pairHold = s.pairHold := rfl
@[simp] theorem State.clearPending_encIn (s : State) : (s.clearPending).encIn = s.encIn := rfl
@[simp] theorem State.clearPending_encOut (s : State) : (s.clearPending).encOut = s.encOut := rfl
@[simp] theorem State.clearPending_decIn (s : State) : (s.clearPending).decIn = s.decIn := rfl
@[simp] theorem State.clearPending_decOut (s : State) : (s.clearPending).decOut = s.decOut := rfl
@[simp] theorem State.clearPending_ports (s : State) : (s.clearPending).ports = s.ports := rfl
@[simp] theorem State.clearPending_freeCount (s : State) : (s.clearPending).freeCount = s.freeCount := rfl
@[simp] theorem State.clearPending_schedule (s : State) : (s.clearPending).schedule = s.schedule := rfl

@[simp] theorem State.forgetPair_mode (s : State) : (s.forgetPair).mode = s.mode := rfl
@[simp] theorem State.forgetPair_pairPending (s : State) : (s.forgetPair).pairPending = false := rfl
@[simp] theorem State.forgetPair_pairHold (s : State) : (s.forgetPair).pairHold = Config.unspecifiedHold s.freeCount := rfl
@[simp] theorem State.forgetPair_encIn (s : State) : (s.forgetPair).encIn = s.encIn := rfl
@[simp] theorem State.forgetPair_encOut (s : State) : (s.forgetPair).encOut = s.encOut := rfl
@[simp] theorem State.forgetPair_decIn (s : State) : (s.forgetPair).decIn = s.decIn := rfl
@[simp] theorem State.forgetPair_decOut (s : State) : (s.forgetPair).decOut = s.decOut := rfl
@[simp] theorem State.forgetPair_ports (s : State) : (s.forgetPair).ports = s.ports := rfl
@[simp] theorem State.forgetPair_freeCount (s : State) : (s.forgetPair).freeCount = s.freeCount + 1 := rfl
@[simp] theorem State.forgetPair_schedule (s : State) : (s.forgetPair).schedule = s.schedule := rfl

@[simp] theorem State.pushEnc_mode (s : State) (v : Byte) : (s.pushEnc v).mode = s.mode := rfl
@[simp] theorem State.pushEnc_pairPending (s : State) (v : Byte) : (s.pushEnc v).pairPending = s.pairPending := rfl
@[simp] theorem State.pushEnc_pairHold (s : State) (v : Byte) : (s.pushEnc v).pairHold = s.pairHold := rfl
@[simp] theorem State.pushEnc_encIn (s : State) (v : Byte) : (s.pushEnc v).encIn = s.encIn := rfl
@[simp] theorem State.pushEnc_encOut (s : State) (v : Byte) : (s.pushEnc v).encOut = s.encOut ++ [v] := rfl
@[simp] theorem State.pushEnc_decIn (s : State) (v : Byte) : (s.pushEnc v).decIn = s.decIn := rfl
@[simp] theorem State.pushEnc_decOut (s : State) (v : Byte) : (s.pushEnc v).decOut = s.decOut := rfl
@[simp] theorem State.pushEnc_ports (s : State) (v : Byte) : (s.pushEnc v).ports = s.ports := rfl
@[simp] theorem State.pushEnc_freeCount (s : State) (v : Byte) : (s.pushEnc v).freeCount = s.freeCount := rfl
@[simp] theorem State.pushEnc_schedule (s : State) (v : Byte) : (s.pushEnc v).schedule = s.schedule := rfl

@[simp] theorem State.pushDec_mode (s : State) (v : Byte) : (s.pushDec v).mode = s.mode := rfl
@[simp] theorem State.pushDec_pairPending (s : State) (v : Byte) : (s.pushDec v).pairPending = s.pairPending := rfl
@[simp] theorem State.pushDec_pairHold (s : State) (v : Byte) : (s.pushDec v).pairHold = s.pairHold := rfl
@[simp] theorem State.pushDec_encIn (s : State) (v : Byte) : (s.pushDec v).encIn = s.encIn := rfl
@[simp] theorem State.pushDec_encOut (s : State) (v : Byte) : (s.pushDec v).encOut = s.encOut := rfl
@[simp] theorem State.pushDec_decIn (s : State) (v : Byte) : (s.pushDec v).decIn = s.decIn := rfl
@[simp] theorem State.pushDec_decOut (s : State) (v : Byte) : (s.pushDec v).decOut = s.decOut ++ [v] := rfl
@[simp] theorem State.pushDec_ports (s : State) (v : Byte) : (s.pushDec v).ports = s.ports := rfl
@[simp] theorem State.pushDec_freeCount (s : State) (v : Byte) : (s.pushDec v).freeCount = s.freeCount := rfl
@[simp] theorem State.pushDec_schedule (s : State) (v : Byte) : (s.pushDec v).schedule = s.schedule := rfl

@[simp] theorem State.advance_mode (s : State) : (s.advance).mode = s.mode := rfl
@[simp] theorem State.advance_pairPending (s : State) : (s.advance).pairPending = s.pairPending := rfl
@[simp] theorem State.advance_pairHold (s : State) : (s.advance).pairHold = s.pairHold := rfl
@[simp] theorem State.advance_encIn (s : State) : (s.advance).encIn = s.encIn := rfl
@[simp] theorem State.advance_encOut (s : State) : (s.advance).encOut = s.encOut := rfl
@[simp] theorem State.advance_decIn (s : State) : (s.advance).decIn = s.decIn := rfl
@[simp] theorem State.advance_decOut (s : State) : (s.advance).decOut = s.decOut := rfl
@[simp] theorem State.advance_ports (s : State) : (s.advance).ports = s.ports := rfl
@[simp] theorem State.advance_freeCount (s : State) : (s.advance).freeCount = s.freeCount := rfl
@[simp] theorem State.advance_schedule (s : State) : (s.advance).schedule = s.schedule.tail := rfl

/-! ### The launch state -/

@[simp] theorem State.launch_mode (m : Mode) (e d : List Byte) : (State.launch m e d).mode = m := rfl
@[simp] theorem State.launch_pairPending (m : Mode) (e d : List Byte) : (State.launch m e d).pairPending = false := rfl
@[simp] theorem State.launch_encIn (m : Mode) (e d : List Byte) : (State.launch m e d).encIn = e := rfl
@[simp] theorem State.launch_decIn (m : Mode) (e d : List Byte) : (State.launch m e d).decIn = d := rfl
@[simp] theorem State.launch_encOut (m : Mode) (e d : List Byte) : (State.launch m e d).encOut = [] := rfl
@[simp] theorem State.launch_decOut (m : Mode) (e d : List Byte) : (State.launch m e d).decOut = [] := rfl
@[simp] theorem State.launch_ports (m : Mode) (e d : List Byte) : (State.launch m e d).ports = Ports.zero := rfl
@[simp] theorem State.launch_schedule (m : Mode) (e d : List Byte) : (State.launch m e d).schedule = [] := rfl

end Sys2Proof.Machine
end

