-- ==== Sys2Proof/Laws/Ops.lean ====
section
/-! SUPPORT. One lemma per shared operation that says everything it can answer, the meanings in the states that enable them,
and the inversion of a step. -/

namespace Sys2Proof.Machine

/-! ### Guards and pops -/

theorem State.underMode_eq_next {s t : State} {m : Mode} {run : State → Result} :
    s.underMode m run = .next t ↔ s.mode = m ∧ run s = .next t := by
  unfold State.underMode
  split <;> simp_all

theorem State.whenPending_eq_next {s t : State} {p : Bool} {run : State → Result} :
    s.whenPending p run = .next t ↔ s.pairPending = p ∧ run s = .next t := by
  unfold State.whenPending
  split <;> simp_all

theorem State.popEnc_eq_next {s t : State} {b : Byte} {run : State → Result} :
    s.popEnc b run = .next t ↔
      (s.encIn = [] ∧ s = t) ∨ ∃ rest, s.encIn = b :: rest ∧ run (s.withEnc rest s.encOut) = .next t := by
  unfold State.popEnc
  split
  · simp_all
  · rename_i x rest h
    by_cases hx : x = b <;> simp [h, hx]

theorem State.popDec_eq_next {s t : State} {b : Byte} {run : State → Result} :
    s.popDec b run = .next t ↔
      (s.decIn = [] ∧ s = t) ∨ ∃ rest, s.decIn = b :: rest ∧ run (s.withDec rest s.decOut) = .next t := by
  unfold State.popDec
  split
  · simp_all
  · rename_i x rest h
    by_cases hx : x = b <;> simp [h, hx]

@[simp] theorem State.underMode_self (s : State) (run : State → Result) : s.underMode s.mode run = run s := by
  simp [State.underMode]

theorem State.popEnc_cons {s : State} {b : Byte} {rest : List Byte} (h : s.encIn = b :: rest) (run : State → Result) :
    s.popEnc b run = run (s.withEnc rest s.encOut) := by
  simp [State.popEnc, h]

theorem State.popEnc_nil {s : State} (h : s.encIn = []) (b : Byte) (run : State → Result) : s.popEnc b run = .next s := by
  simp [State.popEnc, h]

theorem State.popDec_cons {s : State} {b : Byte} {rest : List Byte} (h : s.decIn = b :: rest) (run : State → Result) :
    s.popDec b run = run (s.withDec rest s.decOut) := by
  simp [State.popDec, h]

theorem State.popDec_nil {s : State} (h : s.decIn = []) (b : Byte) (run : State → Result) : s.popDec b run = .next s := by
  simp [State.popDec, h]

/-! ### The stream operations where they are enabled, as one record update -/

theorem execEncb_of_cons {s : State} {b : Byte} {rest : List Byte} (h : s.encIn = b :: rest) :
    execEncb s.mode b s =
      .next { s with encIn := rest, encOut := s.encOut ++ [(encodeByte s.mode b).1, (encodeByte s.mode b).2] } := by
  simp [execEncb, State.popEnc_cons h, State.pushEnc, State.withEnc]

theorem execDecb0_of_cons {s : State} {b : Byte} {rest : List Byte} (m : Mode) (hp : s.pairPending = false)
    (h : s.decIn = b :: rest) :
    execDecb0 m b s = .next { s with decIn := rest, pairPending := true, pairHold := b } := by
  simp [execDecb0, State.whenPending, hp, State.popDec_cons h, State.holdByte, State.withPair, State.withDec]

theorem execDecb1_of_cons {s : State} {b : Byte} {rest : List Byte} (hp : s.pairPending = true) (h : s.decIn = b :: rest) :
    execDecb1 s.mode b s =
      .next { s with decIn := rest, decOut := s.decOut ++ [decodePair s.mode s.pairHold b], pairPending := false } := by
  simp [execDecb1, State.whenPending, hp, State.popDec_cons h, State.clearPending, State.withPair, State.pushDec,
    State.withDec]

/-! ### Words on the units' inputs decode -/

@[simp] theorem modeOfBit_bitOfMode (m : Mode) : modeOfBit ((bitOfMode m).getLsbD 0) = m := by
  cases m <;> decide

/-- The operation that the driven unit's inputs select. -/
def State.selected (s : State) (d : Drive) : Option Instr :=
  match d with
  | .nibble v => some (.encn (truncNibble v))
  | .frame v => some (.decn (truncFrame v))
  | .codewords l h => some (forwardOp s.mode l h)
  | .pair b0 b1 => some (inverseOp s.mode b0 b1)
  | .encodeTurn => s.encIn.head?.map fun b => .encb s.mode b
  | .decodeTurn => s.decIn.head?.map fun b => decoderOp s.pairPending s.mode b
  | .rst => some .reset
  | .deliverEnc _ => none
  | .deliverDec _ => none
  | .takeEnc => none
  | .takeDec => none
  | .idle => none

/-- The word on the driven unit's inputs is the encoding of the operation they select. -/
theorem State.drivenWord_eq_encode (s : State) (d : Drive) : s.drivenWord d = (s.selected d).map encode := by
  cases d with
  | codewords l h => cases hm : s.mode <;> simp only [State.drivenWord, State.selected, forwardOp, hm] <;> rfl
  | pair b0 b1 => cases hm : s.mode <;> simp only [State.drivenWord, State.selected, inverseOp, hm] <;> rfl
  | encodeTurn => cases h : s.encIn <;> simp only [State.drivenWord, State.selected, State.encoderWord, h] <;> rfl
  | decodeTurn =>
    cases h : s.decIn <;> cases hp : s.pairPending <;>
      simp only [State.drivenWord, State.selected, State.decoderWord, decoderOp, h, hp] <;> rfl
  | _ => rfl

end Sys2Proof.Machine
end

