-- ==== Sys2Proof/Laws/PerInstr.lean ====
section
/-! SUPPORT. Statements about an operation as syntax, one lemma per constructor of `Instr`. -/

namespace Sys2Proof.Laws

/-- The word of an operation is well formed, on the operation's own unit, and selected by the operation's row of
spec/opcode_table.json. -/
def WordForm.Statement (i : Instr) : Prop :=
  (encode i).wellFormed = true ∧ (encode i).unit = i.unit ∧
    ∃ r ∈ opTable, r.mnemonic = i.mnemonic ∧ r.selects (encode i) = true

/-- A row without selector bits selects every word of its unit. -/
theorem selects_all (m : String) (w : OpWord) : OpRow.selects ⟨m, w.unit, 0#17, 0#17⟩ w = true := by
  simp [OpRow.selects]

/-- A row with one selector bit `k` selects the words of its unit in which that bit is the row's. -/
theorem selects_bit (m : String) (w : OpWord) (k : Nat) (b : Bool) (h : w.bits.getLsbD k = b) :
    OpRow.selects ⟨m, w.unit, BitVec.twoPow 17 k, if b then BitVec.twoPow 17 k else 0#17⟩ w = true := by
  simp [OpRow.selects, BitVec.and_twoPow, h]

theorem WordForm.encn (n : Nibble) : WordForm.Statement (.encn n) := by
  refine ⟨?_, rfl, ⟨"ENCN", .encoderBlock, 0x0#17, 0x0#17⟩, by simp [opTable], rfl, selects_all _ (encode (.encn n))⟩
  simp [OpWord.wellFormed, OpWord.fits, encode, OpUnit.width]
  omega

theorem WordForm.decn (f : Frame) : WordForm.Statement (.decn f) := by
  refine ⟨?_, rfl, ⟨"DECN", .decoderBlock, 0x0#17, 0x0#17⟩, by simp [opTable], rfl, selects_all _ (encode (.decn f))⟩
  simp [OpWord.wellFormed, OpWord.fits, encode, OpUnit.width]
  omega

theorem WordForm.encb (m : Mode) (b : Byte) : WordForm.Statement (.encb m b) := by
  refine ⟨?_, rfl, ⟨"ENCB", .streamEncoder, 0x0#17, 0x0#17⟩, by simp [opTable], rfl, selects_all _ (encode (.encb m b))⟩
  simp [OpWord.wellFormed, OpWord.fits, encode, OpUnit.width]
  omega

theorem WordForm.cat (l h : Codeword) : WordForm.Statement (.cat l h) := by
  refine ⟨?_, rfl, ⟨"CAT", .forwardPort, 0x4000#17, 0x0#17⟩, by simp [opTable], rfl,
    selects_bit _ (encode (.cat l h)) 14 false (Bits.top_of_three _ _ _ rfl (by decide))⟩
  simp [OpWord.wellFormed, OpWord.fits, encode, OpUnit.width]
  omega

theorem WordForm.ilv (l h : Codeword) : WordForm.Statement (.ilv l h) := by
  refine ⟨?_, rfl, ⟨"ILV", .forwardPort, 0x4000#17, 0x4000#17⟩, by simp [opTable], rfl,
    selects_bit _ (encode (.ilv l h)) 14 true (Bits.top_of_three _ _ _ rfl (by decide))⟩
  simp [OpWord.wellFormed, OpWord.fits, encode, OpUnit.width]
  omega

theorem WordForm.dcat (b0 b1 : Byte) : WordForm.Statement (.dcat b0 b1) := by
  refine ⟨?_, rfl, ⟨"DCAT", .inversePort, 0x10000#17, 0x0#17⟩, by simp [opTable], rfl,
    selects_bit _ (encode (.dcat b0 b1)) 16 false (Bits.top_of_three _ _ _ rfl (by decide))⟩
  simp [OpWord.wellFormed, OpWord.fits, encode, OpUnit.width]
  omega

theorem WordForm.dilv (b0 b1 : Byte) : WordForm.Statement (.dilv b0 b1) := by
  refine ⟨?_, rfl, ⟨"DILV", .inversePort, 0x10000#17, 0x10000#17⟩, by simp [opTable], rfl,
    selects_bit _ (encode (.dilv b0 b1)) 16 true (Bits.top_of_three _ _ _ rfl (by decide))⟩
  simp [OpWord.wellFormed, OpWord.fits, encode, OpUnit.width]
  omega

theorem WordForm.decb0 (m : Mode) (b : Byte) : WordForm.Statement (.decb0 m b) := by
  refine ⟨?_, rfl, ⟨"DECB0", .streamDecoder, 0x200#17, 0x0#17⟩, by simp [opTable], rfl,
    selects_bit _ (encode (.decb0 m b)) 9 false (Bits.top_of_three _ _ _ rfl (by decide))⟩
  simp [OpWord.wellFormed, OpWord.fits, encode, OpUnit.width]
  omega

theorem WordForm.decb1 (m : Mode) (b : Byte) : WordForm.Statement (.decb1 m b) := by
  refine ⟨?_, rfl, ⟨"DECB1", .streamDecoder, 0x200#17, 0x200#17⟩, by simp [opTable], rfl,
    selects_bit _ (encode (.decb1 m b)) 9 true (Bits.top_of_three _ _ _ rfl (by decide))⟩
  simp [OpWord.wellFormed, OpWord.fits, encode, OpUnit.width]
  omega

theorem WordForm.reset : WordForm.Statement .reset :=
  ⟨by decide, rfl, ⟨"RESET", .resetInput, 0x1#17, 0x1#17⟩, by simp [opTable], rfl, by decide⟩

end Sys2Proof.Laws
end

