-- ==== Sys2Proof/Laws/Step.lean ====
section
/-! SUPPORT. What a step can do, said once: the word on a unit's inputs decodes to the operation they select, so a step runs
that operation or makes the environment's move; and what each drive's step leaves. Runs, unfolded one step at a time. -/

namespace Sys2Proof.Machine

open Sys2Proof.Bits

/-- The word that a drive puts on a unit's inputs fits the unit. -/
theorem encode_selected_fits (i : Instr) : (encode i).fits = true := by
  cases i <;> simp [OpWord.fits, encode, OpUnit.width] <;> omega

/-- The word on the driven unit's inputs decodes to the operation they select. -/
theorem decode_drivenWord {s : State} {d : Drive} {i : Instr} (h : s.selected d = some i) : decode (encode i) = .ok i := by
  unfold decode
  rw [if_pos (encode_selected_fits i)]
  cases d with
  | nibble v => cases h; simp only [encode]; rw [all_of_setWidth _ (by omega)]
  | frame v => cases h; simp only [encode]; rw [all_of_setWidth _ (by omega)]
  | codewords l r =>
    simp only [State.selected, Option.some.injEq] at h
    subst h
    cases s.mode <;> simp only [forwardOp, encode] <;>
      rw [slice_of_setWidth _ (by omega), slice_of_setWidth _ (by omega), low_of_append, middle_of_append,
        top_of_three _ _ _ rfl (by omega)] <;> rfl
  | pair b0 b1 =>
    simp only [State.selected, Option.some.injEq] at h
    subst h
    cases s.mode <;> simp only [inverseOp, encode] <;>
      rw [slice_of_setWidth _ (by omega), slice_of_setWidth _ (by omega), low_of_append, middle_of_append,
        top_of_three _ _ _ rfl (by omega)] <;> rfl
  | encodeTurn =>
    cases he : s.encIn with
    | nil => simp [State.selected, he] at h
    | cons b rest =>
      simp only [State.selected, he, List.head?_cons, Option.map_some, Option.some.injEq] at h
      subst h
      simp only [encode]
      rw [slice_of_setWidth _ (by omega), low_of_append, top_of_two _ _ rfl (by omega), modeOfBit_bitOfMode]
  | decodeTurn =>
    cases he : s.decIn with
    | nil => simp [State.selected, he] at h
    | cons b rest =>
      simp only [State.selected, he, List.head?_cons, Option.map_some, Option.some.injEq] at h
      subst h
      cases s.pairPending <;> simp only [decoderOp, encode] <;>
        rw [slice_of_setWidth _ (by omega), low_of_append, top_of_three _ _ _ rfl (by omega),
          middle_bit_of_three _ _ _ rfl (by omega), modeOfBit_bitOfMode] <;> rfl
  | rst => cases h; decide
  | deliverEnc b => cases h
  | deliverDec b => cases h
  | takeEnc => cases h
  | takeDec => cases h
  | idle => cases h

/-- A step runs the operation that the coming drive selects, or makes the environment's move. -/
theorem step_eq_selected (s : State) :
    step s = match s.selected s.nextDrive with
      | some i => exec i s.advance
      | none => .next (s.advance.environment s.nextDrive) := by
  unfold step State.nextWord
  rw [State.drivenWord_eq_encode]
  cases h : s.selected s.nextDrive with
  | none => rfl
  | some i => simp only [Option.map_some, runWord, decode_drivenWord h]

/-- What the step of a drive leaves, beside the schedule moved on. -/
def State.stepEffect (s t : State) (d : Drive) : Prop :=
  match d with
  | .encodeTurn =>
    match s.encIn with
    | [] => t = s.advance
    | b :: rest =>
      t = { s.advance with encIn := rest, encOut := s.encOut ++ [(encodeByte s.mode b).1, (encodeByte s.mode b).2] }
  | .decodeTurn =>
    match s.decIn, s.pairPending with
    | [], _ => t = s.advance
    | b :: rest, false => t = { s.advance with decIn := rest, pairPending := true, pairHold := b }
    | b :: rest, true =>
      t = { s.advance with
            decIn := rest, decOut := s.decOut ++ [decodePair s.mode s.pairHold b], pairPending := false }
  | .rst => t = s.advance.forgetPair
  | .nibble _ => ∃ p, t = s.advance.withPorts p
  | .frame _ => ∃ p, t = s.advance.withPorts p
  | .codewords _ _ => ∃ p, t = s.advance.withPorts p
  | .pair _ _ => ∃ p, t = s.advance.withPorts p
  | .deliverEnc b => t = { s.advance with encIn := s.encIn ++ [b] }
  | .deliverDec b => t = { s.advance with decIn := s.decIn ++ [b] }
  | .takeEnc => t = { s.advance with encOut := s.encOut.tail }
  | .takeDec => t = { s.advance with decOut := s.decOut.tail }
  | .idle => t = s.advance

/-- What a step answers: a next state with its drive's effect. -/
theorem step_effect (s : State) : ∃ t, step s = .next t ∧ s.stepEffect t s.nextDrive := by
  rw [step_eq_selected]
  cases s.nextDrive with
  | encodeTurn =>
    cases he : s.encIn with
    | nil => exact ⟨s.advance, by simp [State.selected, he, State.environment], by simp [State.stepEffect, he]⟩
    | cons b rest =>
      refine ⟨_, ?_, by simp only [State.stepEffect, he]; rfl⟩
      simp only [State.selected, he, List.head?_cons, Option.map_some, exec]
      exact execEncb_of_cons (s := s.advance) (by simpa using he)
  | decodeTurn =>
    cases he : s.decIn with
    | nil => exact ⟨s.advance, by simp [State.selected, he, State.environment], by simp [State.stepEffect, he]⟩
    | cons b rest =>
      cases hp : s.pairPending
      · refine ⟨_, ?_, by simp only [State.stepEffect, he, hp]; rfl⟩
        simp only [State.selected, he, List.head?_cons, Option.map_some, exec, hp, decoderOp]
        exact execDecb0_of_cons (s := s.advance) s.mode (by simpa using hp) (by simpa using he)
      · refine ⟨_, ?_, by simp only [State.stepEffect, he, hp]; rfl⟩
        simp only [State.selected, he, List.head?_cons, Option.map_some, exec, hp, decoderOp]
        exact execDecb1_of_cons (s := s.advance) (by simpa using hp) (by simpa using he)
  | rst => exact ⟨_, rfl, rfl⟩
  | nibble v => exact ⟨_, rfl, _, rfl⟩
  | frame v => exact ⟨_, rfl, _, rfl⟩
  | codewords l h =>
    cases hm : s.mode <;>
      simp only [State.selected, forwardOp, hm, exec, execCat, execIlv, State.underMode, State.advance_mode, if_true] <;>
      exact ⟨_, rfl, _, rfl⟩
  | pair b0 b1 =>
    cases hm : s.mode <;>
      simp only [State.selected, inverseOp, hm, exec, execDcat, execDilv, State.underMode, State.advance_mode, if_true] <;>
      exact ⟨_, rfl, _, rfl⟩
  | deliverEnc b => exact ⟨_, rfl, rfl⟩
  | deliverDec b => exact ⟨_, rfl, rfl⟩
  | takeEnc => exact ⟨_, rfl, rfl⟩
  | takeDec => exact ⟨_, rfl, rfl⟩
  | idle => exact ⟨_, rfl, rfl⟩

/-- The inversion of a step. -/
theorem stepEffect_of_step {s t : State} (h : step s = .next t) : s.stepEffect t s.nextDrive := by
  obtain ⟨u, hu, he⟩ := step_effect s
  rw [h] at hu
  cases hu
  exact he

/-! ### Runs -/

theorem run_zero (s : State) : Host.Core.run Sys2Proof.core 0 s = .next s := rfl

theorem run_succ {s t : State} (k : Nat) (h : step s = .next t) :
    Host.Core.run Sys2Proof.core (k + 1) s = Host.Core.run Sys2Proof.core k t := by
  have hs : Sys2Proof.core.step s = .next t := h
  simp only [Host.Core.run, hs]

theorem run_succ_inv {s t : State} {k : Nat} (h : Host.Core.run Sys2Proof.core (k + 1) s = .next t) :
    ∃ u, step s = .next u ∧ Host.Core.run Sys2Proof.core k u = .next t := by
  obtain ⟨u, hu, -⟩ := step_effect s
  exact ⟨u, hu, by rw [← run_succ k hu, h]⟩

end Sys2Proof.Machine
end

