-- ==== Sys2Proof/Tests/Slice0.lean ====
section
/-! SUPPORT. Tests on fixed values, their results taken from the spec (95_test_vectors.md and the rules' worked examples), and
a witness of the hypotheses of every statement that has some. -/

namespace Sys2Proof.Tests

open Sys2Proof Sys2Proof.Machine

/-! ### WellFormed: each check refuses an ill-formed term -/

theorem test_word_too_wide_is_ill_formed : (⟨.encoderBlock, 0x10#17⟩ : OpWord).wellFormed = false := by decide

theorem test_word_too_wide_does_not_decode :
    decode ⟨.streamEncoder, 0x200#17⟩ = .error (.wordTooWide .streamEncoder) := by rfl

theorem test_reset_not_asserted_is_ill_formed : (⟨.resetInput, 0#17⟩ : OpWord).wellFormed = false := by decide

theorem test_reset_not_asserted_does_not_decode : decode ⟨.resetInput, 0#17⟩ = .error .resetNotAsserted := by rfl

theorem test_widest_word_is_well_formed : (⟨.inversePort, 0x1FFFF#17⟩ : OpWord).wellFormed = true := by decide

theorem test_every_operand_is_well_formed : (Instr.decn 0xFF#8).wellFormed = true := by decide

/-! ### Decoding: words written out from 30_encoding.md R69 -/

theorem test_decode_encn : decode ⟨.encoderBlock, 0b1010#17⟩ = .ok (.encn 0xA#4) := by rfl
theorem test_decode_decn : decode ⟨.decoderBlock, 0b10010100#17⟩ = .ok (.decn 0x94#8) := by rfl
theorem test_decode_cat : decode ⟨.forwardPort, 0b0_0100101_1011010#17⟩ = .ok (.cat 0x25#7 0x5A#7) := by rfl
theorem test_decode_ilv : decode ⟨.forwardPort, 0b1_0100101_1011010#17⟩ = .ok (.ilv 0x25#7 0x5A#7) := by rfl
theorem test_decode_dcat : decode ⟨.inversePort, 0b0_01001011_01101000#17⟩ = .ok (.dcat 0x4B#8 0x68#8) := by rfl
theorem test_decode_dilv : decode ⟨.inversePort, 0b1_01100101_10011000#17⟩ = .ok (.dilv 0x65#8 0x98#8) := by rfl
/-- Programs P1 and P2 of 95_test_vectors.md. -/
theorem test_decode_encb :
    decode ⟨.streamEncoder, 0b010100101#17⟩ = .ok (.encb .concatenated 0xA5#8) ∧
    decode ⟨.streamEncoder, 0b110100101#17⟩ = .ok (.encb .interleaved 0xA5#8) := by constructor <;> rfl
/-- Programs P2 and P3. -/
theorem test_decode_decb0 :
    decode ⟨.streamDecoder, 0b0101100100#17⟩ = .ok (.decb0 .interleaved 0x64#8) ∧
    decode ⟨.streamDecoder, 0b0001001011#17⟩ = .ok (.decb0 .concatenated 0x4B#8) := by constructor <;> rfl
/-- Programs P2 and P3. -/
theorem test_decode_decb1 :
    decode ⟨.streamDecoder, 0b1100011000#17⟩ = .ok (.decb1 .interleaved 0x18#8) ∧
    decode ⟨.streamDecoder, 0b1001101000#17⟩ = .ok (.decb1 .concatenated 0x68#8) := by constructor <;> rfl
theorem test_decode_reset : decode ⟨.resetInput, 0b1#17⟩ = .ok .reset := by rfl

/-- Numbers of the opcode table at the table's exact widths and in whole bytes. -/
theorem test_table_words :
    [(4, 0x5), (8, 0x94), (16, 0x12DA), (16, 0x52DA), (24, 0x4B68), (24, 0x16598), (16, 0x1A5)].map
      (fun p => decodeTableWord p.1 p.2) =
    [some (.encn 0x5#4), some (.decn 0x94#8), some (.cat 0x25#7 0x5A#7), some (.ilv 0x25#7 0x5A#7),
     some (.dcat 0x4B#8 0x68#8), some (.dilv 0x65#8 0x98#8), some (.encb .interleaved 0xA5#8)] := by decide

theorem test_table_words_of_stream_decoder_and_reset :
    [(10, 0x14B), (16, 0x318), (8, 0x1), (24, 0x20000), (32, 0)].map (fun p => decodeTableWord p.1 p.2) =
    [some (.decb0 .interleaved 0x4B#8), some (.decb1 .interleaved 0x18#8), some .reset, none, none] := by decide

/-! ### One step on a small state -/

/-- An instance of mode `m` with one thing scheduled and known inputs. -/
def small (m : Mode) (d : Drive) (enc dec : List Byte) : State :=
  { State.launch m enc dec with schedule := [d] }

/-- The same with a byte held. -/
def holding (m : Mode) (hold : Byte) (dec : List Byte) : State :=
  { State.launch m [] dec with pairPending := true, pairHold := hold, schedule := [.decodeTurn] }

/-- A field of the state after one step. -/
def after {α : Type} (s : State) (field : State → α) : Option α :=
  match step s with
  | .next t => some (field t)
  | .fault _ => none
  | .refused _ => none

/-- 30_encoding.md R70, and 95_test_vectors.md 2.1 for the truncation of 0x1A. -/
theorem test_encn_step :
    after (small .concatenated (.nibble 0x1A) [] []) (fun t => (t.ports.nibbleIn, t.ports.codewordOut)) =
      some (0xA#4, 0x5A#7) := by decide

/-- 41_hamming_74_decoder_syndrome.md R111, worked example. -/
theorem test_decn_step :
    after (small .concatenated (.frame 0x94) [] []) (fun t => (t.ports.nibbleOut, t.ports.syndromeOut)) =
      some (0xA#4, 3#3) := by decide

/-- 95_test_vectors.md 2.3: two errors, positions 5 and 7. -/
theorem test_decn_two_errors :
    after (small .interleaved (.frame 0xBE) [] []) (fun t => (t.ports.nibbleOut, t.ports.syndromeOut)) =
      some (0xF#4, 2#3) := by decide

/-- 42_bit_interleaver.md R131 and 95_test_vectors.md 2.6. -/
theorem test_cat_step :
    after (small .concatenated (.codewords 0x25#7 0x5A#7) [] []) (fun t => (t.ports.byte0Out, t.ports.byte1Out)) =
      some (0x4B#8, 0x68#8) := by decide

/-- R132: `ILV(0x7F, 0x00) = (0xAA, 0xA8)`. -/
theorem test_ilv_step :
    after (small .interleaved (.codewords 0x7F#7 0x00#7) [] []) (fun t => (t.ports.byte0Out, t.ports.byte1Out)) =
      some (0xAA#8, 0xA8#8) := by decide

/-- 95_test_vectors.md 2.6: byte0 bit 0 is `H[6]`. -/
theorem test_dcat_step :
    after (small .concatenated (.pair 0x01#8 0x00#8) [] []) (fun t => (t.ports.loCwOut, t.ports.hiCwOut)) =
      some (0x00#7, 0x40#7) := by decide

/-- 95_test_vectors.md 2.6: a received pad of 11 is ignored. -/
theorem test_dilv_step :
    after (small .interleaved (.pair 0x65#8 0x9B#8) [] []) (fun t => (t.ports.loCwOut, t.ports.hiCwOut)) =
      some (0x25#7, 0x5A#7) := by decide

/-- 43_stream_layer.md R151, worked example. -/
theorem test_encb_step_concatenated :
    after (small .concatenated .encodeTurn [0xA5#8, 0x00#8] []) (fun t => (t.encIn, t.encOut)) =
      some ([0x00#8], [0x4B#8, 0x68#8]) := by decide

/-- R151, worked example. -/
theorem test_encb_step_interleaved :
    after (small .interleaved .encodeTurn [0xA5#8] []) (fun t => (t.encIn, t.encOut)) =
      some ([], [0x65#8, 0x98#8]) := by decide

/-- R152, worked example. -/
theorem test_decb0_step :
    after (small .concatenated .decodeTurn [] [0x4B#8, 0x68#8]) (fun t => (t.pairPending, t.pairHold, t.decIn, t.decOut)) =
      some (true, 0x4B#8, [0x68#8], []) := by decide

/-- 95_test_vectors.md 2.8: two single errors, one in each codeword, corrected. -/
theorem test_decb1_step :
    after (holding .interleaved 0x64#8 [0x18#8]) (fun t => (t.pairPending, t.decIn, t.decOut)) =
      some (false, [], [0xA5#8]) := by decide

/-- 95_test_vectors.md P4: a concatenated pair decoded as interleaved. -/
theorem test_decb1_mode_mismatch :
    after (holding .interleaved 0x4B#8 [0x68#8]) (fun t => t.decOut) = some [0x49#8] := by decide

/-- 70_reset_and_hazards.md R190, worked example. -/
theorem test_reset_step :
    after { holding .concatenated 0x4B#8 [0x68#8] with schedule := [.rst] } (fun t => (t.pairPending, t.decIn, t.decOut)) =
      some (false, [0x68#8], []) := by decide

/-- 20_memory.md R41: the unit waits on an empty stream. -/
theorem test_decode_turn_waits :
    after (small .interleaved .decodeTurn [] []) (fun t => (t.pairPending, t.decOut, t.schedule)) =
      some (false, [], []) := by decide

/-- An operation set up from a number of the opcode table runs as the first after reset. -/
theorem test_first_operation_after_reset :
    after (State.reset.withFetchWord 16 0x1A5) (fun t => t.encOut) = some [0x65#8, 0x98#8] := by decide

/-! ### Witnesses: a state and operands that meet a statement's hypotheses -/

theorem witness_EncodeOfDecode : decode ⟨.forwardPort, 0x7FFF#17⟩ = .ok (.ilv 0x7F#7 0x7F#7) := by rfl

theorem witness_EachWordSelectsOneOperation :
    (⟨.streamDecoder, 0x3FF#17⟩ : OpWord).wellFormed = true ∧ (⟨.streamDecoder, 0x400#17⟩ : OpWord).wellFormed = false := by
  decide

theorem witness_UnitInputsSelectOperation :
    (State.launch .concatenated [0xA5#8] [0x4B#8]).mode = .concatenated ∧
    (State.launch .concatenated [0xA5#8] [0x4B#8]).encIn = 0xA5#8 :: [] ∧
    (State.launch .concatenated [0xA5#8] [0x4B#8]).decIn = 0x4B#8 :: [] ∧
    (State.launch .interleaved [] []).mode = .interleaved ∧ (State.launch .interleaved [] []).pairPending = false ∧
    (holding .interleaved 0x64#8 [0x18#8]).pairPending = true := by decide

theorem witness_StepRunsDecodedOperation :
    (small .concatenated (.nibble 0xA) [] []).nextWord = some ⟨.encoderBlock, 0xA#17⟩ ∧
    decode ⟨.encoderBlock, 0xA#17⟩ = .ok (.encn 0xA#4) := ⟨by decide, rfl⟩

theorem witness_DrivenOperationRuns : decodeTableWord 24 0x1FFFF = some (.dilv 0xFF#8 0xFF#8) := by decide

theorem witness_EnvironmentMoves :
    (small .concatenated (.deliverEnc 0xA5#8) [] []).schedule = .deliverEnc 0xA5#8 :: [] ∧
    (small .concatenated (.deliverDec 0xA5#8) [] []).schedule = .deliverDec 0xA5#8 :: [] ∧
    (small .concatenated .takeEnc [] []).schedule = .takeEnc :: [] ∧
    (small .concatenated .takeDec [] []).schedule = .takeDec :: [] ∧
    (small .concatenated .idle [] []).schedule = .idle :: [] := by decide

/-- Outputs for a take: the pair of 0xA5 on one path, 0xA5 on the other. -/
def withOutputs (d : Drive) : State :=
  { small .concatenated d [] [] with encOut := [0x4B#8, 0x68#8], decOut := [0xA5#8] }

theorem witness_EnvironmentMoves_takes :
    (withOutputs .takeEnc).schedule = .takeEnc :: [] ∧ (withOutputs .takeEnc).encOut ≠ [] ∧
    (withOutputs .takeDec).schedule = .takeDec :: [] ∧ (withOutputs .takeDec).decOut ≠ [] ∧
    after (withOutputs .takeEnc) (fun t => (t.encOut, t.decOut)) = some ([0x68#8], [0xA5#8]) ∧
    after (withOutputs .takeDec) (fun t => (t.encOut, t.decOut)) = some ([0x4B#8, 0x68#8], []) := by decide

theorem witness_UnitsWaitOnEmptyStreams :
    ((small .concatenated .encodeTurn [] []).encIn = [] ∧
      (small .concatenated .encodeTurn [] []).schedule = .encodeTurn :: []) ∧
    ((small .concatenated .decodeTurn [] []).decIn = [] ∧
      (small .concatenated .decodeTurn [] []).schedule = .decodeTurn :: [] ∧
      (small .concatenated .decodeTurn [] []).pairPending = false) ∧
    ((holding .concatenated 0x4B#8 []).decIn = [] ∧ (holding .concatenated 0x4B#8 []).pairPending = true) ∧
    (State.launch .interleaved [] []).encIn = [] ∧ (State.launch .interleaved [] []).decIn = [] ∧
    (State.launch .interleaved [] []).schedule = [] := by decide

theorem witness_MisselectedOperationsRefused :
    (State.launch .interleaved [] []).mode = .interleaved ∧ (State.launch .concatenated [] []).mode = .concatenated ∧
    (State.launch .concatenated [] []).mode ≠ .interleaved ∧ (holding .concatenated 0x4B#8 []).pairPending = true ∧
    (State.launch .concatenated [] []).pairPending = false ∧
    (State.launch .concatenated [0xA5#8] []).encIn = 0xA5#8 :: [] ∧ (0xA5#8 : Byte) ≠ 0x00#8 ∧
    (State.launch .concatenated [] [0xA5#8]).decIn = 0xA5#8 :: [] ∧
    (State.launch .concatenated [] [0xA5#8]).pairPending = false ∧
    (holding .concatenated 0x4B#8 [0xA5#8]).decIn = 0xA5#8 :: [] := by decide

theorem witness_EncnResult : (small .concatenated (.nibble 0x1A) [] []).schedule = .nibble 0x1A :: [] := by decide

theorem witness_WideInputsTruncated :
    (small .concatenated (.nibble 0xF0) [] []).schedule = .nibble 0xF0 :: [] ∧
    (small .concatenated (.frame 0x1B4) [] []).schedule = .frame 0x1B4 :: [] := by decide

/-- Positions 1 and 7 are the ends of the range of the position clauses. -/
theorem witness_positions :
    (1 ≤ 1 ∧ 1 ≤ 7) ∧ (1 ≤ 7 ∧ 7 ≤ 7) ∧ syndrome (1#8 <<< (8 - 1)) = 1#3 ∧ syndrome (1#8 <<< (8 - 7)) = 7#3 := by decide

theorem witness_CodeDistanceAndCovering :
    encn 0x3#4 = encn 0x3#4 ∧ (0x0#4 : Nibble) ≠ 0xF#4 ∧ ones (0x01#7 ^^^ encn 0x0#4) ≤ 1 := by decide

theorem witness_DecnLawsAgainstEncn :
    ones (0b1111111#7 ^^^ encn 0xF#4) ≤ 1 ∧ (1 ≤ 1 ∧ 1 ≤ 7) ∧ (1 ≤ 7 ∧ 7 ≤ 7) ∧ (1 : Nat) ≠ 7 := by decide

theorem witness_FourthParitySlotIgnored : (0xB4#8 : Frame).extractLsb' 1 7 = (0xB5#8 : Frame).extractLsb' 1 7 := by decide

theorem witness_FrameAlignmentHazard : (0x03#8 : Byte).toNat < 4 := by decide

theorem witness_CatResult :
    (State.launch .concatenated [] []).mode = .concatenated ∧ (0x00#7 : Codeword) = 0x00#7 ∧ (0x7F#7 : Codeword) = 0x7F#7 := by
  decide

theorem witness_IlvResult : (State.launch .interleaved [] []).mode = .interleaved ∧ (0 < 7) ∧ (6 < 7) := by decide

theorem witness_DcatResult : (State.launch .concatenated [] []).mode = .concatenated := by decide

theorem witness_DilvResult : (State.launch .interleaved [] []).mode = .interleaved ∧ (0 < 7) ∧ (6 < 7) := by decide

theorem witness_PadBitsZeroAndIgnored : (0x03#8 : Byte).toNat < 4 ∧ (0x00#8 : Byte).toNat < 4 := by decide

theorem witness_BurstErrors :
    (∀ j : Nat, (1#16 <<< 15 : Pair).getLsbD j = true → j = 15 ∨ j = 15 + 1) ∧ (15 < 16) ∧ (14 < 15) ∧ (8 < 15) := by
  refine ⟨?_, by decide⟩
  intro j h
  by_cases hj : j < 16
  · interval_cases j <;> simp_all
  · rw [BitVec.getLsbD_of_ge _ _ (by omega)] at h
    cases h

theorem witness_EncbResult :
    (State.launch .concatenated [0xA5#8, 0x00#8] []).encIn = 0xA5#8 :: [0x00#8] ∧
    (State.launch .concatenated [0xA5#8, 0x00#8] []).mode = .concatenated ∧
    (State.launch .interleaved [0xFF#8] []).encIn = 0xFF#8 :: [] ∧
    (State.launch .interleaved [0xFF#8] []).mode = .interleaved := by decide

theorem witness_Decb0Result :
    (State.launch .interleaved [] [0x4B#8, 0x68#8]).pairPending = false ∧
    (State.launch .interleaved [] [0x4B#8, 0x68#8]).decIn = 0x4B#8 :: [0x68#8] := by decide

theorem witness_Decb1Result :
    (holding .concatenated 0x4B#8 [0x68#8]).pairPending = true ∧ (holding .concatenated 0x4B#8 [0x68#8]).decIn = 0x68#8 :: [] ∧
    (holding .concatenated 0x4B#8 [0x68#8]).mode = .concatenated ∧ (holding .concatenated 0x4B#8 [0x68#8]).pairHold = 0x4B#8 ∧
    (holding .interleaved 0x64#8 [0x18#8]).mode = .interleaved ∧ (0x03#8 : Byte).toNat < 4 := by decide

theorem witness_StreamsMovedByEachOperation :
    ∃ t, exec (.encb .interleaved 0xA5#8) (State.launch .interleaved [0xA5#8] []) = .next t := ⟨_, rfl⟩

theorem witness_PairStateWriters :
    (∃ t, exec (.decb0 .interleaved 0x4B#8) (State.launch .interleaved [] [0x4B#8]) = .next t) ∧
    (State.launch .interleaved [] []).nextWord = none ∧ ∃ t, step (State.launch .interleaved [] []) = .next t :=
  ⟨⟨_, rfl⟩, rfl, ⟨_, rfl⟩⟩

theorem witness_ModeConstantAlongRuns :
    ∃ t, Host.Core.run Sys2Proof.core 1 (State.launch .interleaved [0xA5#8] []) = .next t := ⟨_, rfl⟩

theorem witness_ResetResult :
    ∃ t, exec .reset (holding .concatenated 0x4B#8 [0x68#8]) = .next t ∧ t.decIn = 0x68#8 :: [] := ⟨_, rfl, rfl⟩

/-- Program P7 of 95_test_vectors.md. -/
theorem witness_ResetInTheMiddleOfAPair :
    ((State.launch .concatenated [] [0x4B#8, 0x4B#8, 0x68#8]).pairPending = false ∧
      (State.launch .concatenated [] [0x4B#8, 0x4B#8, 0x68#8]).decIn = 0x4B#8 :: 0x4B#8 :: [0x68#8]) ∧
    ((holding .concatenated 0x4B#8 [0x68#8]).pairPending = true ∧
      (holding .concatenated 0x4B#8 [0x68#8]).decIn = 0x68#8 :: []) ∧
    ∃ t, exec .reset (holding .concatenated 0x4B#8 [0x68#8]) = .next t := ⟨by decide, by decide, ⟨_, rfl⟩⟩

theorem witness_StepKeepsPortsCombinational :
    (small .interleaved (.frame 0x94) [] []).portsCombinational ∧ ∃ t, step (small .interleaved (.frame 0x94) [] []) = .next t :=
  ⟨⟨by decide, by decide, by decide, by decide⟩, ⟨_, rfl⟩⟩

theorem witness_UnspecifiedHoldNeverObserved : State.reset.pairPending = false := rfl

theorem witness_EncodePathConserved :
    Drive.takeEnc ∉ (small .interleaved .encodeTurn [0xA5#8] []).schedule ∧
    ∃ t, Host.Core.run Sys2Proof.core 1 (small .interleaved .encodeTurn [0xA5#8] []) = .next t := ⟨by decide, ⟨_, rfl⟩⟩

theorem witness_DecodePathConserved :
    Drive.takeDec ∉ (small .interleaved .decodeTurn [] [0x65#8]).schedule ∧
    Drive.rst ∉ (small .interleaved .decodeTurn [] [0x65#8]).schedule ∧
    ∃ t, Host.Core.run Sys2Proof.core 1 (small .interleaved .decodeTurn [] [0x65#8]) = .next t :=
  ⟨by decide, by decide, ⟨_, rfl⟩⟩

/-- Two schedules for `OutputIndependentOfInterleaving`: in one the byte is delivered by the environment after a delay, in the
other it stands in the stream from the start. -/
theorem witness_OutputIndependentOfInterleaving :
    ∃ s s' t t' : State, s.mode = s'.mode ∧ Host.Core.run Sys2Proof.core 3 s = .next t ∧
      Host.Core.run Sys2Proof.core 1 s' = .next t' ∧
      Drive.takeEnc ∉ s.schedule ∧ Drive.takeEnc ∉ s'.schedule ∧ Drive.takeDec ∉ s.schedule ∧ Drive.takeDec ∉ s'.schedule ∧
      Drive.rst ∉ s.schedule ∧ Drive.rst ∉ s'.schedule ∧
      s.encIn ++ deliveriesEnc s.schedule = s'.encIn ++ deliveriesEnc s'.schedule ∧ s.encOut = s'.encOut ∧
      s.heldByte ++ s.decIn ++ deliveriesDec s.schedule = s'.heldByte ++ s'.decIn ++ deliveriesDec s'.schedule ∧
      s.decOut = s'.decOut ∧ t.encIn ++ deliveriesEnc t.schedule = [] ∧ t'.encIn ++ deliveriesEnc t'.schedule = [] ∧
      t.decIn ++ deliveriesDec t.schedule = [] ∧ t'.decIn ++ deliveriesDec t'.schedule = [] :=
  ⟨{ State.launch .interleaved [] [] with schedule := [.idle, .deliverEnc 0xA5#8, .encodeTurn] },
   State.launch .interleaved [0xA5#8] [], _, _, by decide, rfl, rfl, by decide, by decide, by decide, by decide, by decide,
   by decide, by decide, by decide, by decide, by decide, by decide, by decide, by decide, by decide⟩

theorem witness_RunsComputeStreamFunctions :
    (State.launch .concatenated [] [0x4B#8, 0x68#8]).schedule = [] ∧ (State.launch .concatenated [] [0x4B#8, 0x68#8]).encIn = [] ∧
    (State.launch .concatenated [] [0x4B#8, 0x68#8]).pairPending = false ∧
    (State.launch .concatenated [] [0x4B#8, 0x68#8]).decIn.length % 2 = 0 ∧ ([0x4B#8] : List Byte).length % 2 = 1 ∧
    ([0x4B#8, 0x68#8] : List Byte)[2 * 0]? = some 0x4B#8 ∧ ([0x4B#8, 0x68#8] : List Byte)[2 * 0 + 1]? = some 0x68#8 ∧
    ([0xA5#8] : List Byte)[0]? = some 0xA5#8 := by decide

/-- Program P3 of 95_test_vectors.md. -/
theorem witness_OddLengthDecodeIsStuck :
    (State.launch .concatenated [] [0x4B#8, 0x68#8, 0x4B#8]).schedule = [] ∧
    (State.launch .concatenated [] [0x4B#8, 0x68#8, 0x4B#8]).encIn = [] ∧
    (State.launch .concatenated [] [0x4B#8, 0x68#8, 0x4B#8]).pairPending = false ∧
    (State.launch .concatenated [] [0x4B#8, 0x68#8, 0x4B#8]).decIn = [0x4B#8, 0x68#8] ++ [0x4B#8] ∧
    ([0x4B#8, 0x68#8] : List Byte).length % 2 = 0 := by decide

/-- 95_test_vectors.md 2.6, mask 0x0180 interleaved: one error in each codeword. -/
theorem witness_StreamRoundTrip :
    ([0x01#8, 0x80#8] : List Byte).length = 2 * ([0xA5#8] : List Byte).length ∧
    correctable .interleaved 0x01#8 0x80#8 = true := by decide

/-- Program P2 of 95_test_vectors.md. -/
theorem witness_LinkRecoversSentBytes :
    ∃ (tx rx t : State) (es : List Byte), tx.mode = rx.mode ∧ tx.schedule = [] ∧ tx.encOut = [] ∧ rx.schedule = [] ∧
      rx.encIn = [] ∧ rx.pairPending = false ∧ es.length = 2 * tx.encIn.length ∧ allCorrectable tx.mode es = true ∧
      Host.Core.run Sys2Proof.core tx.encIn.length tx = .next t ∧ rx.decIn = channel t.encOut es :=
  ⟨State.launch .interleaved [0xA5#8] [], State.launch .interleaved [] [0x64#8, 0x18#8], _, [0x01#8, 0x80#8], by decide,
   by decide, by decide, by decide, by decide, by decide, by decide, by decide, rfl, by decide⟩

theorem witness_OutputFinalOnceInputConsumed :
    (∃ s t : State, Drive.takeEnc ∉ s.schedule ∧ Host.Core.run Sys2Proof.core 1 s = .next t ∧
      s.encIn = [0xA5#8, 0x00#8] ∧ t.encIn = [0x00#8] ∧ t.encOut = [0x65#8, 0x98#8]) ∧
    (∃ s t : State, Drive.takeDec ∉ s.schedule ∧ Drive.rst ∉ s.schedule ∧ Host.Core.run Sys2Proof.core 3 s = .next t ∧
      s.decIn = [0x65#8, 0x98#8, 0x00#8, 0x00#8] ∧ t.decIn = [0x00#8] ∧ t.heldByte = [0x00#8] ∧ t.decOut = [0xA5#8]) ∧
    ([0x4B#8, 0x68#8] : List Byte).length % 2 = 0 :=
  ⟨⟨small .interleaved .encodeTurn [0xA5#8, 0x00#8] [], _, by decide, rfl, rfl, rfl, by decide⟩,
   ⟨small .interleaved .decodeTurn [] [0x65#8, 0x98#8, 0x00#8, 0x00#8], _, by decide, by decide, rfl, rfl, rfl, rfl, by decide⟩,
   by decide⟩

end Sys2Proof.Tests
end

section
/-! PROOFS of the family 00_scope.md: the step that the word on the driven unit's inputs gives (R7). -/

namespace Sys2Proof.Machine

/-- What a word does is the operation it decodes to. -/
theorem runWord_of_decode {w : OpWord} {i : Instr} (h : decode w = .ok i) (s : State) : runWord w s = exec i s := by
  simp only [runWord, h]

/-- Where the coming drive puts a word on a unit's inputs, the step runs that word. -/
theorem step_of_nextWord {s : State} {w : OpWord} (h : s.nextWord = some w) : step s = runWord w s.advance := by
  simp only [step, h]

/-- Settles O6: the step runs the coming word, and the word runs the operation it decodes to. -/
theorem stepRunsDecodedOperation : Obligations.StepRunsDecodedOperation := by
  intro s w i hword hdecode
  calc step s = runWord w s.advance := step_of_nextWord hword
    _ = exec i s.advance := runWord_of_decode hdecode _

end Sys2Proof.Machine
end

section
/-! PROOFS of the family 10_state.md: the operation that the units' inputs select (R22), who writes `pair_pending` and
`pair_hold` (R23, R24), and what no run writes or observes (`MODE`, the ports, a dead `pair_hold`). -/

namespace Sys2Proof.Machine

/-! ### Which operations read or write the pair state -/

/-- What the operation does is the same for every `pair_pending` and `pair_hold`, and it leaves both alone. -/
def PairBlind (i : Instr) : Prop :=
  ∀ (s t : State) (p : Bool) (h : Byte), exec i s = .next t → exec i (s.withPair p h) = .next (t.withPair p h)

/-- R23, R24: only DECB0, DECB1 and RESET read or write the pair state. -/
theorem pairBlind_or_pairOperation (i : Instr) :
    PairBlind i ∨ (∃ m b, i = .decb0 m b) ∨ (∃ m b, i = .decb1 m b) ∨ i = .reset := by
  cases i with
  | encn n => exact .inl fun s t p h hs => by cases hs; rfl
  | decn f => exact .inl fun s t p h hs => by cases hs; rfl
  | cat l r | ilv l r | dcat b0 b1 | dilv b0 b1 =>
    refine .inl fun s t p h hs => ?_
    simp only [exec, execCat, execIlv, execDcat, execDilv, State.underMode_eq_next] at hs ⊢
    obtain ⟨hm, hrun⟩ := hs
    cases hrun
    exact ⟨hm, rfl⟩
  | encb m b =>
    refine .inl fun s t p h hs => ?_
    simp only [exec, execEncb, State.underMode_eq_next, State.popEnc_eq_next] at hs ⊢
    obtain ⟨hm, ⟨hin, rfl⟩ | ⟨rest, hin, hrun⟩⟩ := hs
    · exact ⟨hm, .inl ⟨hin, rfl⟩⟩
    · cases hrun
      exact ⟨hm, .inr ⟨rest, hin, rfl⟩⟩
  | decb0 m b => exact .inr (.inl ⟨m, b, rfl⟩)
  | decb1 m b => exact .inr (.inr (.inl ⟨m, b, rfl⟩))
  | reset => exact .inr (.inr (.inr rfl))

/-- A pair-blind operation leaves the pair state as it was: it runs alike where that state is written over itself. -/
theorem pairState_of_pairBlind {i : Instr} {s t : State} (hi : PairBlind i) (hs : exec i s = .next t) :
    t.pairPending = s.pairPending ∧ t.pairHold = s.pairHold := by
  have hself : exec i s = .next (t.withPair s.pairPending s.pairHold) := hi s t _ _ hs
  have ht : t = t.withPair s.pairPending s.pairHold := Host.Outcome.next.inj (hs.symm.trans hself)
  exact ⟨(congrArg State.pairPending ht :), (congrArg State.pairHold ht :)⟩

/-- DECB0 is selected by `pair_pending = 0`; it waits, or pops its byte and holds it. -/
theorem exec_decb0_eq_next {m : Mode} {b : Byte} {s t : State} :
    exec (.decb0 m b) s = .next t ↔ s.pairPending = false ∧ ((s.decIn = [] ∧ s = t) ∨
      ∃ rest, s.decIn = b :: rest ∧ { s with decIn := rest, pairPending := true, pairHold := b } = t) := by
  simp [exec, execDecb0, State.whenPending_eq_next, State.popDec_eq_next, State.holdByte, State.withPair, State.withDec]

/-- DECB1 is selected by `pair_pending = 1`; it waits, or pops its byte and emits the decoded one. -/
theorem exec_decb1_eq_next {m : Mode} {b : Byte} {s t : State} :
    exec (.decb1 m b) s = .next t ↔ s.mode = m ∧ s.pairPending = true ∧ ((s.decIn = [] ∧ s = t) ∨
      ∃ rest, s.decIn = b :: rest ∧ { s with
        decIn := rest, decOut := s.decOut ++ [decodePair m s.pairHold b], pairPending := false } = t) := by
  simp [exec, execDecb1, State.underMode_eq_next, State.whenPending_eq_next, State.popDec_eq_next, State.pushDec,
    State.clearPending, State.withPair, State.withDec]

/-! ### Moves of the environment -/

/-- Where the coming drive puts no word on a unit's inputs, the step is the environment's move. -/
theorem step_of_nextWord_none {s : State} (h : s.nextWord = none) : step s = .next (s.advance.environment s.nextDrive) := by
  simp only [step, h]

/-- The environment's move neither reads nor writes the pair state. -/
theorem State.environment_withPair (s : State) (p : Bool) (h : Byte) (d : Drive) :
    (s.withPair p h).environment d = (s.environment d).withPair p h := by
  cases d <;> rfl

@[simp] theorem State.environment_pairPending (s : State) (d : Drive) : (s.environment d).pairPending = s.pairPending := by
  cases d <;> rfl

@[simp] theorem State.environment_pairHold (s : State) (d : Drive) : (s.environment d).pairHold = s.pairHold := by
  cases d <;> rfl

/-! ### Runs of two states side by side -/

/-- A relation that a step from the one state can follow by a step from the other holds between the ends of their runs. -/
theorem run_keeps_relation {R : State → State → Prop}
    (hstep : ∀ {s u t : State}, R s u → step s = .next t → ∃ v, step u = .next v ∧ R t v) (k : Nat) :
    ∀ {s u : State}, R s u → ∃ t v, Host.Core.run Sys2Proof.core k s = .next t ∧
      Host.Core.run Sys2Proof.core k u = .next v ∧ R t v := by
  induction k with
  | zero => exact fun {s u} h => ⟨s, u, run_zero s, run_zero u, h⟩
  | succ k ih =>
    intro s u h
    obtain ⟨t, hs, -⟩ := step_effect s
    obtain ⟨v, hu, hv⟩ := hstep h hs
    rw [run_succ k hs, run_succ k hu]
    exact ih hv

/-! ### A dead `pair_hold` is never read (R24) -/

/-- The states are equal, or equal but for `pair_hold` while `pair_pending = 0`. -/
def State.EqualButDeadHold (s u : State) : Prop :=
  u = s ∨ s.pairPending = false ∧ ∃ hold, u = s.withPair false hold

theorem State.withPair_false_of_not_pending {s : State} (hp : s.pairPending = false) (hold : Byte) :
    s.withPair false hold = { s with pairHold := hold } := by
  simp [State.withPair, hp]

/-- With `pair_pending = 0` no operation reads `pair_hold`: DECB1 is not selected, DECB0 and RESET write it first. -/
theorem exec_keeps_equalButDeadHold {i : Instr} {s t : State} (hold : Byte) (hp : s.pairPending = false)
    (hs : exec i s = .next t) : ∃ v, exec i (s.withPair false hold) = .next v ∧ t.EqualButDeadHold v := by
  obtain hi | ⟨m, b, rfl⟩ | ⟨m, b, rfl⟩ | rfl := pairBlind_or_pairOperation i
  · obtain ⟨hpt, -⟩ := pairState_of_pairBlind hi hs
    exact ⟨_, hi s t false hold hs, .inr ⟨hpt.trans hp, hold, rfl⟩⟩
  · obtain ⟨-, ⟨hin, rfl⟩ | ⟨rest, hin, rfl⟩⟩ := exec_decb0_eq_next.mp hs
    · exact ⟨_, exec_decb0_eq_next.mpr ⟨rfl, .inl ⟨hin, rfl⟩⟩, .inr ⟨hp, hold, rfl⟩⟩
    · exact ⟨_, exec_decb0_eq_next.mpr ⟨rfl, .inr ⟨rest, hin, rfl⟩⟩, .inl rfl⟩
  · obtain ⟨-, hpending, -⟩ := exec_decb1_eq_next.mp hs
    cases hp.symm.trans hpending
  · cases hs
    exact ⟨_, rfl, .inl rfl⟩

/-- With `pair_pending = 0` the operation selected is the same whatever `pair_hold` is. -/
theorem State.selected_withPair_of_not_pending {s : State} (hp : s.pairPending = false) (hold : Byte) (d : Drive) :
    (s.withPair false hold).selected d = s.selected d := by
  cases d with
  | decodeTurn => simp [State.selected, hp]
  | _ => rfl

theorem step_keeps_equalButDeadHold {s u t : State} (h : s.EqualButDeadHold u) (hs : step s = .next t) :
    ∃ v, step u = .next v ∧ t.EqualButDeadHold v := by
  obtain rfl | ⟨hp, hold, rfl⟩ := h
  · exact ⟨t, hs, .inl rfl⟩
  have hdrive : (s.withPair false hold).nextDrive = s.nextDrive := rfl
  rw [step_eq_selected] at hs ⊢
  rw [hdrive, State.selected_withPair_of_not_pending hp]
  cases hsel : s.selected s.nextDrive with
  | some i =>
    rw [hsel] at hs
    exact exec_keeps_equalButDeadHold (s := s.advance) hold hp hs
  | none =>
    rw [hsel] at hs
    cases hs
    exact ⟨_, rfl, .inr ⟨by simp [hp], hold, s.advance.environment_withPair false hold _⟩⟩

/-- Settles O44: a run keeps the states equal but for a dead `pair_hold`. -/
theorem unspecifiedHoldNeverObserved : Obligations.UnspecifiedHoldNeverObserved := by
  intro k s hold hp
  have hstart : s.EqualButDeadHold { s with pairHold := hold } :=
    .inr ⟨hp, hold, (State.withPair_false_of_not_pending hp hold).symm⟩
  obtain ⟨t, v, ht, hv, rfl | ⟨hpt, hold', rfl⟩⟩ := run_keeps_relation step_keeps_equalButDeadHold k hstart
  · exact ⟨v, v.pairHold, ht, hv, fun _ => rfl⟩
  · rw [State.withPair_false_of_not_pending hpt] at hv
    exact ⟨t, hold', ht, hv, fun hpending => by cases hpt.symm.trans hpending⟩

/-! ### The operation that the units' inputs select (R22, R69, R130) -/

/-- The word that stands on the driven unit's inputs decodes to the operation they select. -/
theorem drivenWord_decodes {s : State} {d : Drive} {i : Instr} (h : s.selected d = some i) :
    ∃ w, s.drivenWord d = some w ∧ decode w = .ok i :=
  ⟨encode i, by rw [State.drivenWord_eq_encode, h, Option.map_some], decode_drivenWord h⟩

/-- Settles O5: each drive's word decodes to the operation selected, which `MODE` and `pair_pending` name. -/
theorem unitInputsSelectOperation : Obligations.UnitInputsSelectOperation := by
  intro s
  refine ⟨fun v => drivenWord_decodes rfl, fun v => drivenWord_decodes rfl, fun l h => ?_, fun b0 b1 => ?_,
    fun b rest hin => drivenWord_decodes (by simp [State.selected, hin]), fun b rest hin => ?_, drivenWord_decodes rfl⟩
  · obtain ⟨w, hw, hd⟩ := drivenWord_decodes (s := s) (d := .codewords l h) rfl
    exact ⟨w, hw, fun hm => by rw [hd, hm, forwardOp], fun hm => by rw [hd, hm, forwardOp]⟩
  · obtain ⟨w, hw, hd⟩ := drivenWord_decodes (s := s) (d := .pair b0 b1) rfl
    exact ⟨w, hw, fun hm => by rw [hd, hm, inverseOp], fun hm => by rw [hd, hm, inverseOp]⟩
  · have hsel : s.selected .decodeTurn = some (decoderOp s.pairPending s.mode b) := by simp [State.selected, hin]
    obtain ⟨w, hw, hd⟩ := drivenWord_decodes hsel
    exact ⟨w, hw, fun hp => by rw [hd, hp, decoderOp], fun hp => by rw [hd, hp, decoderOp]⟩

/-! ### The writers of the pair state (R23, R24) -/

/-- Settles O36: an operation is pair-blind, or one of the three that write the pair state. -/
theorem pairStateWriters : Obligations.PairStateWriters := by
  refine ⟨fun i s t hs => ?_, fun s t hword hs => ?_⟩
  · obtain hi | ⟨m, b, rfl⟩ | ⟨m, b, rfl⟩ | rfl := pairBlind_or_pairOperation i
    · exact .inl (pairState_of_pairBlind hi hs)
    · obtain ⟨hp, ⟨-, rfl⟩ | ⟨rest, -, rfl⟩⟩ := exec_decb0_eq_next.mp hs
      · exact .inl ⟨rfl, rfl⟩
      · exact .inr (.inl ⟨m, b, rfl, hp, rfl, rfl⟩)
    · obtain ⟨-, hp, ⟨-, rfl⟩ | ⟨rest, -, rfl⟩⟩ := exec_decb1_eq_next.mp hs
      · exact .inl ⟨rfl, rfl⟩
      · exact .inr (.inr (.inl ⟨m, b, rfl, hp, rfl, rfl⟩))
    · cases hs
      exact .inr (.inr (.inr ⟨rfl, rfl⟩))
  · rw [step_of_nextWord_none hword] at hs
    cases hs
    simp

/-! ### `MODE` and the ports along runs (R20, R25, R26) -/

/-- No step writes `MODE`. -/
theorem step_mode {s t : State} (h : step s = .next t) : t.mode = s.mode := by
  have heffect := stepEffect_of_step h
  revert heffect
  cases s.nextDrive with
  | encodeTurn => cases hin : s.encIn <;> simp only [State.stepEffect, hin] <;> rintro rfl <;> rfl
  | decodeTurn =>
    cases hin : s.decIn <;> cases hp : s.pairPending <;> simp only [State.stepEffect, hin, hp] <;> rintro rfl <;> rfl
  | nibble v | frame v | codewords l r | pair b0 b1 => rintro ⟨p, rfl⟩; rfl
  | rst | deliverEnc b | deliverDec b | takeEnc | takeDec | idle => rintro rfl; rfl

/-- Settles O37, by induction on the number of steps. -/
theorem modeConstantAlongRuns : Obligations.ModeConstantAlongRuns := by
  intro k
  induction k with
  | zero => intro s t h; cases h; rfl
  | succ k ih =>
    intro s t h
    obtain ⟨u, hu, hrun⟩ := run_succ_inv h
    exact (ih u t hrun).trans (step_mode hu)

/-- The states are equal but for the ports of the blocks. -/
def State.EqualButPorts (s u : State) : Prop := ∃ p, u = s.withPorts p

/-- No drive's effect reads the ports beyond writing them again. -/
theorem stepEffect_keeps_equalButPorts {s t v : State} {p : Ports} {d : Drive} (hs : s.stepEffect t d)
    (hu : (s.withPorts p).stepEffect v d) : t.EqualButPorts v := by
  revert hs hu
  cases d with
  | encodeTurn =>
    cases hin : s.encIn <;> simp only [State.stepEffect, State.withPorts_encIn, hin] <;> rintro rfl rfl <;> exact ⟨p, rfl⟩
  | decodeTurn =>
    cases hin : s.decIn <;> cases hp : s.pairPending <;>
      simp only [State.stepEffect, State.withPorts_decIn, State.withPorts_pairPending, hin, hp] <;>
      rintro rfl rfl <;> exact ⟨p, rfl⟩
  | nibble v | frame v | codewords l r | pair b0 b1 => rintro ⟨q, rfl⟩ ⟨q', rfl⟩; exact ⟨q', rfl⟩
  | rst | deliverEnc b | deliverDec b | takeEnc | takeDec | idle => rintro rfl rfl; exact ⟨p, rfl⟩

theorem step_keeps_equalButPorts {s u t : State} (h : s.EqualButPorts u) (hs : step s = .next t) :
    ∃ v, step u = .next v ∧ t.EqualButPorts v := by
  obtain ⟨p, rfl⟩ := h
  obtain ⟨v, hv, heffect⟩ := step_effect (s.withPorts p)
  exact ⟨v, hv, stepEffect_keeps_equalButPorts (stepEffect_of_step hs) heffect⟩

/-- Settles O43: a run keeps the states equal but for the ports. -/
theorem portsCarryNothingForward : Obligations.PortsCarryNothingForward := by
  intro k s p
  obtain ⟨t, v, ht, hv, q, rfl⟩ := run_keeps_relation step_keeps_equalButPorts k (s := s) ⟨p, rfl⟩
  exact ⟨t, q, ht, hv⟩

/-! ### Reset and launch (R20, R30, R191) -/

/-- Settles O40: the fields of a launch, and reset as the launch with nothing delivered. -/
theorem resetStateValues : Obligations.ResetStateValues := by
  simp [Obligations.ResetStateValues, State.reset]

end Sys2Proof.Machine
end

section
/-! PROOFS of the family 20_memory.md: the moves of the environment (R48) and the waits (R41), the stream each operation moves
bytes of (R44), the two paths side by side (R48), and the stream that each path's run conserves (R46). -/

namespace Sys2Proof.Machine

/-! ### Runs and the schedule -/

/-- What every step keeps holds at the end of every run. -/
theorem run_invariant {P : State → Prop} (hstep : ∀ {s t : State}, P s → step s = .next t → P t) (k : Nat) :
    ∀ {s t : State}, P s → Host.Core.run Sys2Proof.core k s = .next t → P t := by
  induction k with
  | zero =>
    intro s t hs hrun
    cases hrun
    exact hs
  | succ k ih =>
    intro s t hs hrun
    obtain ⟨u, hu, hrest⟩ := run_succ_inv hrun
    exact ih (hstep hs hu) hrest

/-- Every step moves the schedule on. -/
theorem step_schedule {s t : State} (h : step s = .next t) : t.schedule = s.schedule.tail := by
  have heffect := stepEffect_of_step h
  revert heffect
  cases s.nextDrive with
  | encodeTurn => cases hin : s.encIn <;> simp only [State.stepEffect, hin] <;> rintro rfl <;> rfl
  | decodeTurn =>
    cases hin : s.decIn <;> cases hp : s.pairPending <;> simp only [State.stepEffect, hin, hp] <;> rintro rfl <;> rfl
  | nibble v | frame v | codewords l r | pair b0 b1 => rintro ⟨p, rfl⟩; rfl
  | rst | deliverEnc b | deliverDec b | takeEnc | takeDec | idle => rintro rfl; rfl

/-- A drive that is not scheduled is not scheduled after a step either. -/
theorem not_mem_schedule_of_step {s t : State} {d : Drive} (hd : d ∉ s.schedule) (h : step s = .next t) :
    d ∉ t.schedule := by
  rw [step_schedule h]
  exact fun hmem => hd (List.mem_of_mem_tail hmem)

/-- The drive at the head of the schedule is the coming one. -/
theorem State.nextDrive_of_cons {s : State} {d : Drive} {ds : List Drive} (h : s.schedule = d :: ds) : s.nextDrive = d := by
  simp [State.nextDrive, h]

/-- With nothing scheduled the coming drive is a turn of a path. -/
theorem State.nextDrive_of_nil {s : State} (h : s.schedule = []) :
    s.nextDrive = .encodeTurn ∨ s.nextDrive = .decodeTurn := by
  cases hin : s.encIn <;> simp [State.nextDrive, h, hin]

/-- A drive that is no turn of a path comes only where it is scheduled. -/
theorem State.nextDrive_ne {s : State} {d : Drive} (hd : d ∉ s.schedule) (he : d ≠ .encodeTurn) (ht : d ≠ .decodeTurn) :
    s.nextDrive ≠ d := by
  rintro rfl
  cases hs : s.schedule with
  | nil => exact (State.nextDrive_of_nil hs).elim he ht
  | cons d' ds =>
    rw [State.nextDrive_of_cons hs, hs] at hd
    exact hd List.mem_cons_self

/-- The bytes still to be delivered are those of the coming drive and of the schedule after it: a turn that is not scheduled
delivers none. -/
theorem deliveriesEnc_schedule (s : State) :
    deliveriesEnc s.schedule = deliveriesEnc (s.nextDrive :: s.schedule.tail) := by
  cases hs : s.schedule with
  | nil => obtain h | h := State.nextDrive_of_nil hs <;> rw [h] <;> rfl
  | cons d ds => rw [State.nextDrive_of_cons hs, List.tail_cons]

theorem deliveriesDec_schedule (s : State) :
    deliveriesDec s.schedule = deliveriesDec (s.nextDrive :: s.schedule.tail) := by
  cases hs : s.schedule with
  | nil => obtain h | h := State.nextDrive_of_nil hs <;> rw [h] <;> rfl
  | cons d ds => rw [State.nextDrive_of_cons hs, List.tail_cons]

/-! ### The encode path's stream (R46) -/

/-- The bytes in `ENC_IN` or still to come there. -/
def State.encComing (s : State) : List Byte := s.encIn ++ deliveriesEnc s.schedule

/-- What the encode path has emitted, and what the bytes in `ENC_IN` or still to come will give. -/
def State.encodedInAll (s : State) : List Byte := s.encOut ++ encodeStream s.mode s.encComing

/-- A step that takes nothing from `ENC_OUT` leaves the path's output and coming bytes as they were, or encodes the first of
the coming bytes. -/
theorem step_encodePath {s t : State} (hd : s.nextDrive ≠ .takeEnc) (h : step s = .next t) :
    (t.encOut = s.encOut ∧ t.encComing = s.encComing) ∨
    ∃ b, s.encComing = b :: t.encComing ∧ t.encOut = s.encOut ++ [(encodeByte s.mode b).1, (encodeByte s.mode b).2] := by
  have heffect := stepEffect_of_step h
  simp only [State.encComing, deliveriesEnc_schedule s]
  revert heffect hd
  cases s.nextDrive with
  | encodeTurn =>
    cases hin : s.encIn with
    | nil =>
      simp only [State.stepEffect, hin]
      rintro - rfl
      exact .inl ⟨rfl, by simp [hin, deliveriesEnc]⟩
    | cons b rest =>
      simp only [State.stepEffect, hin]
      rintro - rfl
      exact .inr ⟨b, rfl, rfl⟩
  | decodeTurn =>
    cases hin : s.decIn <;> cases hp : s.pairPending <;> simp only [State.stepEffect, hin, hp] <;> rintro - rfl <;>
      exact .inl ⟨rfl, rfl⟩
  | deliverEnc b =>
    rintro - rfl
    exact .inl ⟨rfl, by simp [deliveriesEnc]⟩
  | nibble v | frame v | codewords l r | pair b0 b1 =>
    rintro - ⟨p, rfl⟩
    exact .inl ⟨rfl, rfl⟩
  | takeEnc => exact fun hne => absurd rfl hne
  | rst | deliverDec b | takeDec | idle =>
    rintro - rfl
    exact .inl ⟨rfl, rfl⟩

theorem step_encodedInAll {s t : State} (hd : Drive.takeEnc ∉ s.schedule) (h : step s = .next t) :
    t.encodedInAll = s.encodedInAll := by
  have hnext : s.nextDrive ≠ .takeEnc := State.nextDrive_ne hd nofun nofun
  rw [State.encodedInAll, State.encodedInAll, step_mode h]
  obtain ⟨hout, hcoming⟩ | ⟨b, hcoming, hout⟩ := step_encodePath hnext h
  · rw [hout, hcoming]
  · simp [hout, hcoming, encodeStream]

/-- Settles O46: each step keeps the stream, and keeps takes from `ENC_OUT` out of the schedule. -/
theorem encodePathConserved : Obligations.EncodePathConserved := by
  intro k s t hd hrun
  have hkeep {u v : State} (hu : Drive.takeEnc ∉ u.schedule ∧ u.encodedInAll = s.encodedInAll) (hstep : step u = .next v) :
      Drive.takeEnc ∉ v.schedule ∧ v.encodedInAll = s.encodedInAll := by
    obtain ⟨hud, heq⟩ := hu
    exact ⟨not_mem_schedule_of_step hud hstep, (step_encodedInAll hud hstep).trans heq⟩
  obtain ⟨-, h⟩ := run_invariant hkeep k ⟨hd, rfl⟩ hrun
  exact h

/-! ### The decode path's stream (R46) -/

/-- The bytes of the decode path that are not decoded yet: held, in `DEC_IN`, or still to come there. -/
def State.decComing (s : State) : List Byte := s.heldByte ++ s.decIn ++ deliveriesDec s.schedule

/-- What the decode path has emitted, and what the bytes not decoded yet will give. -/
def State.decodedInAll (s : State) : List Byte := s.decOut ++ decodePairs s.mode s.decComing

/-- A step that takes nothing from `DEC_OUT` and is no RESET leaves the path's output and its bytes not decoded yet as they
were (DECB0 moves one from `DEC_IN` to `pair_hold`), or decodes the first two of them. -/
theorem step_decodePath {s t : State} (hd : s.nextDrive ≠ .takeDec) (hr : s.nextDrive ≠ .rst) (h : step s = .next t) :
    (t.decOut = s.decOut ∧ t.decComing = s.decComing) ∨
    ∃ b0 b1, s.decComing = b0 :: b1 :: t.decComing ∧ t.decOut = s.decOut ++ [decodePair s.mode b0 b1] := by
  have heffect := stepEffect_of_step h
  simp only [State.decComing, deliveriesDec_schedule s]
  revert heffect hd hr
  cases s.nextDrive with
  | decodeTurn =>
    cases hin : s.decIn with
    | nil =>
      simp only [State.stepEffect, hin]
      rintro - - rfl
      exact .inl ⟨rfl, by simp [hin, State.heldByte, deliveriesDec]⟩
    | cons b rest =>
      cases hp : s.pairPending with
      | false =>
        simp only [State.stepEffect, hin, hp]
        rintro - - rfl
        exact .inl ⟨rfl, by simp [State.heldByte, hp, deliveriesDec]⟩
      | true =>
        simp only [State.stepEffect, hin, hp]
        rintro - - rfl
        exact .inr ⟨s.pairHold, b, by simp [State.heldByte, hp, deliveriesDec], rfl⟩
  | encodeTurn =>
    cases hin : s.encIn <;> simp only [State.stepEffect, hin] <;> rintro - - rfl <;> exact .inl ⟨rfl, rfl⟩
  | deliverDec b =>
    rintro - - rfl
    exact .inl ⟨rfl, by simp [State.heldByte, deliveriesDec]⟩
  | nibble v | frame v | codewords l r | pair b0 b1 =>
    rintro - - ⟨p, rfl⟩
    exact .inl ⟨rfl, rfl⟩
  | takeDec => exact fun hne => absurd rfl hne
  | rst => exact fun _ hne => absurd rfl hne
  | deliverEnc b | takeEnc | idle =>
    rintro - - rfl
    exact .inl ⟨rfl, rfl⟩

theorem step_decodedInAll {s t : State} (hd : Drive.takeDec ∉ s.schedule) (hr : Drive.rst ∉ s.schedule)
    (h : step s = .next t) : t.decodedInAll = s.decodedInAll := by
  have hnotake : s.nextDrive ≠ .takeDec := State.nextDrive_ne hd nofun nofun
  have hnorst : s.nextDrive ≠ .rst := State.nextDrive_ne hr nofun nofun
  rw [State.decodedInAll, State.decodedInAll, step_mode h]
  obtain ⟨hout, hcoming⟩ | ⟨b0, b1, hcoming, hout⟩ := step_decodePath hnotake hnorst h
  · rw [hout, hcoming]
  · simp [hout, hcoming, decodePairs]

/-- Settles O47: each step keeps the stream, and keeps takes from `DEC_OUT` and RESET out of the schedule. -/
theorem decodePathConserved : Obligations.DecodePathConserved := by
  intro k s t hd hr hrun
  have hkeep {u v : State} (hu : Drive.takeDec ∉ u.schedule ∧ Drive.rst ∉ u.schedule ∧ u.decodedInAll = s.decodedInAll)
      (hstep : step u = .next v) :
      Drive.takeDec ∉ v.schedule ∧ Drive.rst ∉ v.schedule ∧ v.decodedInAll = s.decodedInAll := by
    obtain ⟨hud, hur, heq⟩ := hu
    exact ⟨not_mem_schedule_of_step hud hstep, not_mem_schedule_of_step hur hstep,
      (step_decodedInAll hud hur hstep).trans heq⟩
  obtain ⟨-, -, h⟩ := run_invariant hkeep k ⟨hd, hr, rfl⟩ hrun
  exact h

/-- The held byte alone gives no output: a pair wants two. -/
@[simp] theorem decodePairs_heldByte (m : Mode) (s : State) : decodePairs m s.heldByte = [] := by
  cases hp : s.pairPending <;> simp [State.heldByte, hp, decodePairs]

/-- Settles O48: with no input left, each path's output is the stream that its run conserved. -/
theorem outputIndependentOfInterleaving : Obligations.OutputIndependentOfInterleaving := by
  intro k k' s s' t t' hmode hrun hrun'
  refine ⟨fun hd hd' hin hout hleft hleft' => ?_, fun hd hd' hr hr' hin hout hleft hleft' => ?_⟩
  · have h := encodePathConserved k s t hd hrun
    have h' := encodePathConserved k' s' t' hd' hrun'
    rw [hleft, hmode, hin, hout] at h
    rw [hleft'] at h'
    simpa [encodeStream] using h.trans h'.symm
  · have h := decodePathConserved k s t hd hr hrun
    have h' := decodePathConserved k' s' t' hd' hr' hrun'
    rw [List.append_assoc, hleft, hmode, hin, hout] at h
    rw [List.append_assoc t'.heldByte, hleft'] at h'
    simpa using h.trans h'.symm

/-! ### Which stream each operation moves bytes of (R44) -/

/-- ENCB runs under its own `MODE`; it waits, or pops its byte and emits two. -/
theorem exec_encb_eq_next {m : Mode} {b : Byte} {s t : State} :
    exec (.encb m b) s = .next t ↔ s.mode = m ∧ ((s.encIn = [] ∧ s = t) ∨
      ∃ rest, s.encIn = b :: rest ∧
        { s with encIn := rest, encOut := s.encOut ++ [(encodeByte m b).1, (encodeByte m b).2] } = t) := by
  simp [exec, execEncb, State.underMode_eq_next, State.popEnc_eq_next, State.pushEnc, State.withEnc]

/-- Settles O35: what each operation's next state is. -/
theorem streamsMovedByEachOperation : Obligations.StreamsMovedByEachOperation := by
  intro i s t hs
  cases i with
  | encn n | decn f | reset =>
    cases hs
    exact ⟨rfl, rfl, rfl, rfl⟩
  | cat l r | ilv l r | dcat b0 b1 | dilv b0 b1 =>
    simp only [exec, execCat, execIlv, execDcat, execDilv, State.underMode_eq_next] at hs
    obtain ⟨-, hrun⟩ := hs
    cases hrun
    exact ⟨rfl, rfl, rfl, rfl⟩
  | encb m b =>
    obtain ⟨-, ⟨hin, rfl⟩ | ⟨rest, hin, rfl⟩⟩ := exec_encb_eq_next.mp hs
    · exact ⟨rfl, rfl, .inl ⟨hin, rfl⟩⟩
    · exact ⟨rfl, rfl, .inr ⟨rest, _, _, hin, rfl, rfl⟩⟩
  | decb0 m b =>
    obtain ⟨-, ⟨hin, rfl⟩ | ⟨rest, hin, rfl⟩⟩ := exec_decb0_eq_next.mp hs
    · exact ⟨rfl, rfl, .inl ⟨hin, rfl⟩⟩
    · exact ⟨rfl, rfl, .inr ⟨rest, hin, rfl, rfl⟩⟩
  | decb1 m b =>
    obtain ⟨-, -, ⟨hin, rfl⟩ | ⟨rest, hin, rfl⟩⟩ := exec_decb1_eq_next.mp hs
    · exact ⟨rfl, rfl, .inl ⟨hin, rfl⟩⟩
    · exact ⟨rfl, rfl, .inr ⟨rest, _, hin, rfl, rfl⟩⟩

/-! ### Turns of the two paths (R48) -/

/-- The state after a turn of the encode path: ENCB where it is enabled, and a wait otherwise. -/
def State.afterEncodeTurn (s : State) : State :=
  match s.encIn with
  | [] => s
  | b :: rest => { s with encIn := rest, encOut := s.encOut ++ [(encodeByte s.mode b).1, (encodeByte s.mode b).2] }

/-- The state after a turn of the decode path: DECB0 or DECB1 where one is enabled, and a wait otherwise. -/
def State.afterDecodeTurn (s : State) : State :=
  match s.decIn, s.pairPending with
  | [], _ => s
  | b :: rest, false => { s with decIn := rest, pairPending := true, pairHold := b }
  | b :: rest, true =>
    { s with decIn := rest, decOut := s.decOut ++ [decodePair s.mode s.pairHold b], pairPending := false }

theorem step_of_encodeTurn {s : State} (hd : s.nextDrive = .encodeTurn) : step s = .next s.advance.afterEncodeTurn := by
  obtain ⟨t, ht, heffect⟩ := step_effect s
  rw [ht]
  rw [hd] at heffect
  cases hin : s.encIn <;> simp only [State.stepEffect, hin] at heffect <;>
    simp [heffect, State.afterEncodeTurn, hin]

theorem step_of_decodeTurn {s : State} (hd : s.nextDrive = .decodeTurn) : step s = .next s.advance.afterDecodeTurn := by
  obtain ⟨t, ht, heffect⟩ := step_effect s
  rw [ht]
  rw [hd] at heffect
  cases hin : s.decIn <;> cases hp : s.pairPending <;> simp only [State.stepEffect, hin, hp] at heffect <;>
    simp [heffect, State.afterDecodeTurn, hin, hp]

@[simp] theorem State.afterEncodeTurn_of_nil {s : State} (h : s.encIn = []) : s.afterEncodeTurn = s := by
  simp [State.afterEncodeTurn, h]

@[simp] theorem State.afterDecodeTurn_of_nil {s : State} (h : s.decIn = []) : s.afterDecodeTurn = s := by
  simp [State.afterDecodeTurn, h]

@[simp] theorem State.afterEncodeTurn_schedule (s : State) : s.afterEncodeTurn.schedule = s.schedule := by
  unfold State.afterEncodeTurn
  split <;> rfl

@[simp] theorem State.afterDecodeTurn_schedule (s : State) : s.afterDecodeTurn.schedule = s.schedule := by
  unfold State.afterDecodeTurn
  split <;> rfl

/-- Neither path's turn reads what the other's writes. -/
theorem State.turns_commute (s : State) : s.afterEncodeTurn.afterDecodeTurn = s.afterDecodeTurn.afterEncodeTurn := by
  cases he : s.encIn <;> cases hd : s.decIn <;> cases hp : s.pairPending <;>
    simp [State.afterEncodeTurn, State.afterDecodeTurn, he, hd, hp]

/-- A turn does not read the schedule. -/
theorem State.afterEncodeTurn_advance (s : State) : s.afterEncodeTurn.advance = s.advance.afterEncodeTurn := by
  cases hin : s.encIn <;> simp [State.afterEncodeTurn, hin, State.advance, State.withSchedule]

theorem State.afterDecodeTurn_advance (s : State) : s.afterDecodeTurn.advance = s.advance.afterDecodeTurn := by
  cases hin : s.decIn <;> cases hp : s.pairPending <;>
    simp [State.afterDecodeTurn, hin, hp, State.advance, State.withSchedule]

/-- A scheduled turn of the encode path and then one of the decode path. -/
theorem run_encode_decode (s : State) (ds : List Drive) :
    Host.Core.run Sys2Proof.core 2 { s with schedule := .encodeTurn :: .decodeTurn :: ds } =
      .next (s.withSchedule ds).afterEncodeTurn.afterDecodeTurn := by
  rw [run_succ 1 (step_of_encodeTurn rfl),
    run_succ 0 (step_of_decodeTurn (State.nextDrive_of_cons (State.afterEncodeTurn_schedule _))), run_zero,
    State.afterEncodeTurn_advance]
  rfl

/-- The two in the other order. -/
theorem run_decode_encode (s : State) (ds : List Drive) :
    Host.Core.run Sys2Proof.core 2 { s with schedule := .decodeTurn :: .encodeTurn :: ds } =
      .next (s.withSchedule ds).afterDecodeTurn.afterEncodeTurn := by
  rw [run_succ 1 (step_of_decodeTurn rfl),
    run_succ 0 (step_of_encodeTurn (State.nextDrive_of_cons (State.afterDecodeTurn_schedule _))), run_zero,
    State.afterDecodeTurn_advance]
  rfl

/-- Settles O45: both orders end in the state after both turns, and the turns commute. -/
theorem pathsCommute : Obligations.PathsCommute := by
  intro s ds
  refine ⟨_, run_encode_decode s ds, ?_⟩
  rw [run_decode_encode, State.turns_commute]

/-! ### Moves of the environment (R41, R48, R198) and waits (R41) -/

theorem State.advance_of_cons {s : State} {d : Drive} {ds : List Drive} (h : s.schedule = d :: ds) :
    s.advance = { s with schedule := ds } := by
  simp [State.advance, State.withSchedule, h]

theorem State.advance_of_nil {s : State} (h : s.schedule = []) : s.advance = s := by
  cases s
  cases h
  rfl

/-- The step of a scheduled drive that operates no unit is the environment's move. -/
theorem step_of_environmentDrive {s : State} {d : Drive} {ds : List Drive} (h : s.schedule = d :: ds)
    (hword : s.drivenWord d = none) : step s = .next (State.environment { s with schedule := ds } d) := by
  have hnext : s.nextWord = none := by rw [State.nextWord, State.nextDrive_of_cons h, hword]
  rw [step_of_nextWord_none hnext, State.nextDrive_of_cons h, State.advance_of_cons h]

/-- Settles O9: none of the five drives operates a unit. -/
theorem environmentMoves : Obligations.EnvironmentMoves := fun _ _ _ =>
  ⟨fun h => step_of_environmentDrive h rfl, fun h => step_of_environmentDrive h rfl,
    fun h => step_of_environmentDrive h rfl, fun h => step_of_environmentDrive h rfl,
    fun h => step_of_environmentDrive h rfl⟩

/-- Settles O10: an operation that cannot pop, and a turn of a path without input, leave the state as it was. -/
theorem unitsWaitOnEmptyStreams : Obligations.UnitsWaitOnEmptyStreams := by
  intro s b ds
  refine ⟨fun hin => exec_encb_eq_next.mpr ⟨rfl, .inl ⟨hin, rfl⟩⟩,
    fun hin m hp => exec_decb0_eq_next.mpr ⟨hp, .inl ⟨hin, rfl⟩⟩,
    fun hin hp => exec_decb1_eq_next.mpr ⟨rfl, hp, .inl ⟨hin, rfl⟩⟩, fun hin hs => ?_, fun hin hs => ?_,
    fun hein hdin hs => ?_⟩
  · rw [step_of_encodeTurn (State.nextDrive_of_cons hs), State.afterEncodeTurn_of_nil (s := s.advance) hin,
      State.advance_of_cons hs]
  · rw [step_of_decodeTurn (State.nextDrive_of_cons hs), State.afterDecodeTurn_of_nil (s := s.advance) hin,
      State.advance_of_cons hs]
  · have hturn : s.nextDrive = .decodeTurn := by simp [State.nextDrive, hs, hein]
    rw [step_of_decodeTurn hturn, State.afterDecodeTurn_of_nil (s := s.advance) hdin, State.advance_of_nil hs]

end Sys2Proof.Machine
end

section
/-! PROOFS of the family 30_encoding.md: what a drive set up to select an operation does (R48, R68), the encoder and the
decoder as inverses of each other and the rows of the operation table (R69), and the tables of fixed words (R69, R70). -/

namespace Sys2Proof.Machine

/-! ### An operation set up as the next one -/

/-- Where the drive at the head of the schedule selects an operation, the step runs it in the state whose schedule has moved
past the drive. -/
theorem step_of_scheduled {s : State} {d : Drive} {ds : List Drive} {i : Instr} (hs : s.schedule = d :: ds)
    (hsel : s.selected d = some i) : step s = exec i { s with schedule := ds } := by
  rw [step_eq_selected, State.nextDrive_of_cons hs, hsel, State.advance_of_cons hs]

@[simp] theorem truncNibble_toNat (n : Nibble) : truncNibble n.toNat = n := by
  rw [truncNibble, BitVec.ofNat_toNat, BitVec.setWidth_eq]

@[simp] theorem truncFrame_toNat (f : Frame) : truncFrame f.toNat = f := by
  rw [truncFrame, BitVec.ofNat_toNat, BitVec.setWidth_eq]

/-- Setting up an operation puts a drive that selects it at the head of the schedule. -/
theorem State.drive_selects (s : State) (i : Instr) :
    ∃ d, (s.drive i).schedule = d :: s.schedule ∧ (s.drive i).selected d = some i := by
  cases i with
  | encn n => exact ⟨.nibble n.toNat, rfl, by simp [State.selected]⟩
  | decn f => exact ⟨.frame f.toNat, rfl, by simp [State.selected]⟩
  | cat l h | ilv l h => exact ⟨.codewords l h, rfl, rfl⟩
  | dcat b0 b1 | dilv b0 b1 => exact ⟨.pair b0 b1, rfl, rfl⟩
  | encb m b => exact ⟨.encodeTurn, rfl, rfl⟩
  | decb0 m b | decb1 m b => exact ⟨.decodeTurn, rfl, rfl⟩
  | reset => exact ⟨.rst, rfl, rfl⟩

/-- Settles O2: every operation is the one that some drive selects, and the word of such a drive decodes to it. -/
theorem decodeOfEncode : Obligations.DecodeOfEncode := by
  intro i
  obtain ⟨d, -, hsel⟩ := State.reset.drive_selects i
  exact decode_drivenWord hsel

theorem step_drive (s : State) (i : Instr) : step (s.drive i) = exec i { s.drive i with schedule := s.schedule } := by
  obtain ⟨d, hs, hsel⟩ := s.drive_selects i
  exact step_of_scheduled hs hsel

theorem State.withFetchWord_of_decode {nbits w : Nat} {i : Instr} (h : decodeTableWord nbits w = some i) (s : State) :
    s.withFetchWord nbits w = s.drive i := by
  simp only [State.withFetchWord, h]

/-- Settles O7: the step runs the drive that was set up, and a number of the table sets up its operation. -/
theorem drivenOperationRuns : Obligations.DrivenOperationRuns :=
  ⟨step_drive, fun s _ _ i h => by rw [State.withFetchWord_of_decode h, step_drive]⟩

/-! ### A word that decodes is the encoding of its operation (R69) -/

/-- A value below `2 ^ k` is its low `k` bits. -/
theorem setWidth_low_of_lt {v k : Nat} {x : BitVec v} (h : x.toNat < 2 ^ k) : (x.extractLsb' 0 k).setWidth v = x := by
  apply BitVec.eq_of_toNat_eq
  simp [Nat.mod_eq_of_lt h]

/-- A word of two fields is its fields put together again. -/
theorem setWidth_two_fields {v a b : Nat} {x : BitVec v} (h : x.toNat < 2 ^ (a + b)) :
    (x.extractLsb' b a ++ x.extractLsb' 0 b).setWidth v = x := by
  rw [BitVec.extractLsb'_append_extractLsb'_eq_extractLsb' (Nat.zero_add b).symm, setWidth_low_of_lt h]

/-- A word of three fields is its fields put together again. -/
theorem setWidth_three_fields {v a b c : Nat} {x : BitVec v} (h : x.toNat < 2 ^ (a + b + c)) :
    (x.extractLsb' (c + b) a ++ x.extractLsb' c b ++ x.extractLsb' 0 c).setWidth v = x := by
  rw [BitVec.extractLsb'_append_extractLsb'_eq_extractLsb' rfl, setWidth_two_fields h]

theorem ofBool_getLsbD {v : Nat} (x : BitVec v) (k : Nat) : BitVec.ofBool (x.getLsbD k) = x.extractLsb' k 1 := by
  ext i hi
  obtain rfl : i = 0 := by omega
  simp

theorem bitOfMode_modeOfBit (b : Bool) : bitOfMode (modeOfBit b) = BitVec.ofBool b := by
  cases b <;> rfl

theorem encode_forwardOp (m : Mode) (l h : Codeword) :
    encode (forwardOp m l h) = ⟨.forwardPort, (bitOfMode m ++ l ++ h).setWidth 17⟩ := by
  cases m <;> rfl

theorem encode_inverseOp (m : Mode) (b0 b1 : Byte) :
    encode (inverseOp m b0 b1) = ⟨.inversePort, (bitOfMode m ++ b0 ++ b1).setWidth 17⟩ := by
  cases m <;> rfl

theorem encode_decoderOp (pending : Bool) (m : Mode) (b : Byte) :
    encode (decoderOp pending m b) = ⟨.streamDecoder, (BitVec.ofBool pending ++ bitOfMode m ++ b).setWidth 17⟩ := by
  cases pending <;> rfl

/-- Settles O3: each unit's fields, put together again, are the low bits of the word, and the word has no other. -/
theorem encodeOfDecode : Obligations.EncodeOfDecode := by
  rintro ⟨unit, x⟩ i h
  unfold decode at h
  split at h
  case isFalse => cases h
  case isTrue hfits =>
    have hx : x.toNat < 2 ^ unit.width := by simpa [OpWord.fits] using hfits
    cases unit with
    | encoderBlock | decoderBlock =>
      cases h
      exact congrArg _ (setWidth_low_of_lt hx)
    | forwardPort =>
      cases h
      rw [encode_forwardOp, bitOfMode_modeOfBit, ofBool_getLsbD]
      exact congrArg _ (setWidth_three_fields hx)
    | inversePort =>
      cases h
      rw [encode_inverseOp, bitOfMode_modeOfBit, ofBool_getLsbD]
      exact congrArg _ (setWidth_three_fields hx)
    | streamEncoder =>
      cases h
      rw [encode, bitOfMode_modeOfBit, ofBool_getLsbD]
      exact congrArg _ (setWidth_two_fields hx)
    | streamDecoder =>
      cases h
      rw [encode_decoderOp, bitOfMode_modeOfBit, ofBool_getLsbD, ofBool_getLsbD]
      exact congrArg _ (setWidth_three_fields hx)
    | resetInput =>
      cases hbit : x.getLsbD 0 with
      | false =>
        simp only [hbit, Bool.false_eq_true, if_false] at h
        cases h
      | true =>
        simp only [hbit, if_true] at h
        cases h
        rw [← setWidth_low_of_lt hx, OpUnit.width, ← ofBool_getLsbD, hbit]
        rfl

/-! ### The rows of the operation table (R69) -/

/-- The operation's word is well formed and the operation's own row of the table selects it. -/
theorem wordForm (i : Instr) : Laws.WordForm.Statement i :=
  match i with
  | .encn n => Laws.WordForm.encn n
  | .decn f => Laws.WordForm.decn f
  | .cat l h => Laws.WordForm.cat l h
  | .ilv l h => Laws.WordForm.ilv l h
  | .dcat b0 b1 => Laws.WordForm.dcat b0 b1
  | .dilv b0 b1 => Laws.WordForm.dilv b0 b1
  | .encb m b => Laws.WordForm.encb m b
  | .decb0 m b => Laws.WordForm.decb0 m b
  | .decb1 m b => Laws.WordForm.decb1 m b
  | .reset => Laws.WordForm.reset

/-- A row selects the words of its unit whose selector bits have its value. -/
theorem selects_iff {r : OpRow} {w : OpWord} : r.selects w = true ↔ r.unit = w.unit ∧ w.bits &&& r.mask = r.value := by
  simp only [OpRow.selects, Bool.and_eq_true, decide_eq_true_eq]

/-- The rows of one unit read the same selector bits, and no two of them ask for the same value. -/
theorem opTable_rows_disjoint :
    ∀ r ∈ opTable, ∀ r' ∈ opTable, r.unit = r'.unit → r.mask = r'.mask ∧ (r.value = r'.value → r = r') := by
  decide

/-- At most one row of the table selects a word. -/
theorem opTable_row_unique {r r' : OpRow} {w : OpWord} (hr : r ∈ opTable) (hr' : r' ∈ opTable)
    (hw : r.selects w = true) (hw' : r'.selects w = true) : r = r' := by
  obtain ⟨hunit, hvalue⟩ := selects_iff.mp hw
  obtain ⟨hunit', hvalue'⟩ := selects_iff.mp hw'
  obtain ⟨hmask, heq⟩ := opTable_rows_disjoint r hr r' hr' (hunit.trans hunit'.symm)
  exact heq (by rw [← hvalue, ← hvalue', hmask])

/-- A row that selects a word is the only one that does. -/
theorem opTable_filter_selects {r : OpRow} {w : OpWord} (hr : r ∈ opTable) (hw : r.selects w = true) :
    opTable.filter (fun r => r.selects w) = [r] := by
  have hnodup : opTable.Nodup := by decide
  refine List.perm_singleton.mp ((List.perm_ext_iff_of_nodup (hnodup.filter _) (List.nodup_singleton r)).mpr fun r' => ?_)
  rw [List.mem_filter, List.mem_singleton]
  constructor
  · rintro ⟨hr', hw'⟩
    exact opTable_row_unique hr' hr hw' hw
  · rintro rfl
    exact ⟨hr, hw⟩

/-- The decoder refuses no well-formed word. -/
theorem exists_decode_of_wellFormed {w : OpWord} (h : w.wellFormed = true) : ∃ i, decode w = .ok i := by
  obtain ⟨unit, x⟩ := w
  simp only [OpWord.wellFormed, Bool.and_eq_true] at h
  obtain ⟨hfits, hreset⟩ := h
  unfold decode
  rw [if_pos hfits]
  cases unit with
  | resetInput => exact ⟨.reset, if_pos (by simpa using hreset)⟩
  | _ => exact ⟨_, rfl⟩

/-- A word that decodes is well formed, being the encoding of an operation. -/
theorem wellFormed_of_decode {w : OpWord} {i : Instr} (h : decode w = .ok i) : w.wellFormed = true := by
  obtain ⟨hwf, -⟩ := wordForm i
  rwa [encodeOfDecode w i h] at hwf

/-- Settles O4: a well-formed word is the encoding of an operation, whose row alone selects it; any other word does not decode. -/
theorem eachWordSelectsOneOperation : Obligations.EachWordSelectsOneOperation := by
  refine fun w => ⟨fun h => ?_, fun h => ?_⟩
  · obtain ⟨i, hi⟩ := exists_decode_of_wellFormed h
    obtain ⟨-, hunit, r, hr, hmnemonic, hselects⟩ := wordForm i
    obtain ⟨hrow, -⟩ := selects_iff.mp hselects
    rw [encodeOfDecode w i hi] at hselects
    exact ⟨i, r, hi, opTable_filter_selects hr hselects, hmnemonic, hrow.trans hunit⟩
  · cases hd : decode w with
    | error e => exact ⟨e, rfl⟩
    | ok i => cases h.symm.trans (wellFormed_of_decode hd)

/-! ### Words written out from the spec (R69) -/

/-- Settles O1: each of the twelve words is the one that the encoder builds for its operation. -/
theorem specWordsDecode : Obligations.SpecWordsDecode :=
  ⟨decodeOfEncode (.encn 0xA#4), decodeOfEncode (.decn 0x94#8), decodeOfEncode (.cat 0x25#7 0x5A#7),
    decodeOfEncode (.ilv 0x25#7 0x5A#7), decodeOfEncode (.dcat 0x4B#8 0x68#8), decodeOfEncode (.dilv 0x65#8 0x98#8),
    decodeOfEncode (.encb .concatenated 0xA5#8), decodeOfEncode (.encb .interleaved 0xA5#8),
    decodeOfEncode (.decb0 .interleaved 0x64#8), decodeOfEncode (.decb1 .interleaved 0x18#8),
    decodeOfEncode (.decb1 .concatenated 0x68#8), decodeOfEncode .reset⟩

/-! ### Wide inputs (R68) -/

theorem truncNibble_mod (v : Nat) : truncNibble (v % 16) = truncNibble v := by
  apply BitVec.eq_of_toNat_eq
  simp [truncNibble]

theorem truncFrame_mod (v : Nat) : truncFrame (v % 256) = truncFrame v := by
  apply BitVec.eq_of_toNat_eq
  simp [truncFrame]

/-- Settles O13: a bus value counts by its truncation alone, in the functions and as a drive. -/
theorem wideInputsTruncated : Obligations.WideInputsTruncated := by
  intro v
  refine ⟨rfl, by rw [encodeNibble, encodeNibble, truncNibble_mod], rfl, by rw [decodeNibble, decodeNibble, truncFrame_mod],
    fun s ds => ⟨fun hs => ?_, fun hs => ?_⟩⟩
  · have hstep : step s = exec (.encn (truncNibble v)) { s with schedule := ds } := step_of_scheduled hs rfl
    have hmod : step { s with schedule := .nibble (v % 16) :: ds } =
        exec (.encn (truncNibble (v % 16))) { s with schedule := ds } := step_of_scheduled rfl rfl
    exact ⟨hstep, by rw [hstep, hmod, truncNibble_mod]⟩
  · have hstep : step s = exec (.decn (truncFrame v)) { s with schedule := ds } := step_of_scheduled hs rfl
    have hmod : step { s with schedule := .frame (v % 256) :: ds } =
        exec (.decn (truncFrame (v % 256))) { s with schedule := ds } := step_of_scheduled rfl rfl
    exact ⟨hstep, by rw [hstep, hmod, truncFrame_mod]⟩

/-! ### The codeword table (R70) -/

/-- Settles O14, by evaluating the encoder on the table's 16 rows. -/
theorem codewordTable : Obligations.CodewordTable := by
  unfold Obligations.CodewordTable
  decide

end Sys2Proof.Machine
end

section
/-! PROOFS of the family 40_hamming_74_encoder.md: the blocks are combinational (R100, with R110, R119 and R130), ENCN bit by bit
(R101), its parity invariant (R102), its linearity (R103), and the distance and the covering of the code (R104). -/

namespace Sys2Proof.Machine

/-! ### The blocks are combinational: what keeps the ports invariant (R100, R110, R119, R130) -/

/-- The invariant reads `MODE` and the ports alone. -/
theorem State.portsCombinational.congr {s t : State} (hs : s.portsCombinational) (hm : t.mode = s.mode)
    (hp : t.ports = s.ports) : t.portsCombinational := by
  unfold State.portsCombinational
  rw [hm, hp]
  exact hs

theorem State.portsCombinational.withEncoder {s : State} (hs : s.portsCombinational) (n : Nibble) :
    (s.withPorts (s.ports.withEncoder n (encn n))).portsCombinational := by
  obtain ⟨-, hdec, hfwd, hinv⟩ := hs
  exact ⟨rfl, hdec, hfwd, hinv⟩

theorem State.portsCombinational.withDecoder {s : State} (hs : s.portsCombinational) (f : Frame) :
    (s.withPorts (s.ports.withDecoder f (decn f))).portsCombinational := by
  obtain ⟨henc, -, hfwd, hinv⟩ := hs
  exact ⟨henc, rfl, hfwd, hinv⟩

theorem State.portsCombinational.withForward {s : State} (hs : s.portsCombinational) {l h : Codeword} {r : Byte × Byte}
    (hr : r = forward s.mode l h) : (s.withPorts (s.ports.withForward l h r)).portsCombinational := by
  obtain ⟨henc, hdec, -, hinv⟩ := hs
  exact ⟨henc, hdec, hr, hinv⟩

theorem State.portsCombinational.withInverse {s : State} (hs : s.portsCombinational) {b0 b1 : Byte}
    {r : Codeword × Codeword} (hr : r = inverse s.mode b0 b1) :
    (s.withPorts (s.ports.withInverse b0 b1 r)).portsCombinational := by
  obtain ⟨henc, hdec, hfwd, -⟩ := hs
  exact ⟨henc, hdec, hfwd, hr⟩

/-- An operation drives one block's ports with that block's answer, or no port at all. -/
theorem exec_keeps_portsCombinational {i : Instr} {s t : State} (hs : s.portsCombinational) (h : exec i s = .next t) :
    t.portsCombinational := by
  cases i with
  | encn n => cases h; exact hs.withEncoder n
  | decn f => cases h; exact hs.withDecoder f
  | cat l r | ilv l r =>
    simp only [exec, execCat, execIlv, State.underMode_eq_next] at h
    obtain ⟨hm, hrun⟩ := h
    cases hrun
    exact hs.withForward (by rw [hm, forward])
  | dcat b0 b1 | dilv b0 b1 =>
    simp only [exec, execDcat, execDilv, State.underMode_eq_next] at h
    obtain ⟨hm, hrun⟩ := h
    cases hrun
    exact hs.withInverse (by rw [hm, inverse])
  | encb m b => obtain ⟨-, ⟨-, rfl⟩ | ⟨rest, -, rfl⟩⟩ := exec_encb_eq_next.mp h <;> exact hs.congr rfl rfl
  | decb0 m b => obtain ⟨-, ⟨-, rfl⟩ | ⟨rest, -, rfl⟩⟩ := exec_decb0_eq_next.mp h <;> exact hs.congr rfl rfl
  | decb1 m b => obtain ⟨-, -, ⟨-, rfl⟩ | ⟨rest, -, rfl⟩⟩ := exec_decb1_eq_next.mp h <;> exact hs.congr rfl rfl
  | reset => cases h; exact hs.congr rfl rfl

@[simp] theorem State.environment_mode (s : State) (d : Drive) : (s.environment d).mode = s.mode := by
  cases d <;> rfl

@[simp] theorem State.environment_ports (s : State) (d : Drive) : (s.environment d).ports = s.ports := by
  cases d <;> rfl

/-- Settles O41: the step is an operation, which keeps the invariant, or a move of the environment, which touches no port. -/
theorem stepKeepsPortsCombinational : Obligations.StepKeepsPortsCombinational := by
  intro s t hs hstep
  have hadvance : s.advance.portsCombinational := hs.congr rfl rfl
  rw [step_eq_selected] at hstep
  cases hsel : s.selected s.nextDrive with
  | some i =>
    rw [hsel] at hstep
    exact exec_keeps_portsCombinational hadvance hstep
  | none =>
    rw [hsel] at hstep
    cases hstep
    exact hadvance.congr (State.environment_mode ..) (State.environment_ports ..)

/-! ### Zero inputs give zero outputs in every block -/

theorem encn_zero : encn 0#4 = 0#7 := by decide

theorem decn_zero : decn 0#8 = (0#4, 0#3) := by decide

theorem forward_zero (m : Mode) : forward m 0#7 0#7 = (0#8, 0#8) := by
  cases m <;> decide

theorem inverse_zero (m : Mode) : inverse m 0#8 0#8 = (0#7, 0#7) := by
  cases m <;> decide

theorem State.launch_portsCombinational (m : Mode) (e d : List Byte) : (State.launch m e d).portsCombinational :=
  ⟨encn_zero.symm, decn_zero.symm, (forward_zero m).symm, (inverse_zero m).symm⟩

/-- Settles O42: every port is zero at launch, and the reset state is a launch. -/
theorem resetPortsCombinational : Obligations.ResetPortsCombinational :=
  ⟨State.launch_portsCombinational Config.mode [] [], State.launch_portsCombinational⟩

/-! ### ENCN bit by bit (R101) -/

theorem encn_6 (n : Nibble) : (encn n).getLsbD 6 = (n.getLsbD 3 ^^ n.getLsbD 2 ^^ n.getLsbD 0) := bits7_6 ..
theorem encn_5 (n : Nibble) : (encn n).getLsbD 5 = (n.getLsbD 3 ^^ n.getLsbD 1 ^^ n.getLsbD 0) := bits7_5 ..
theorem encn_4 (n : Nibble) : (encn n).getLsbD 4 = n.getLsbD 3 := bits7_4 ..
theorem encn_3 (n : Nibble) : (encn n).getLsbD 3 = (n.getLsbD 2 ^^ n.getLsbD 1 ^^ n.getLsbD 0) := bits7_3 ..
theorem encn_2 (n : Nibble) : (encn n).getLsbD 2 = n.getLsbD 2 := bits7_2 ..
theorem encn_1 (n : Nibble) : (encn n).getLsbD 1 = n.getLsbD 1 := bits7_1 ..
theorem encn_0 (n : Nibble) : (encn n).getLsbD 0 = n.getLsbD 0 := bits7_0 ..

/-- Settles O12: the codeword answered is `encn n`, and the bus value 0x1A is a drive that selects ENCN of 0xA. -/
theorem encnResult : Obligations.EncnResult := by
  refine ⟨fun n s => ⟨encn n, decodeOfEncode (.encn n), rfl, encn_6 n, encn_5 n, encn_4 n, encn_3 n, encn_2 n, encn_1 n,
    encn_0 n, ?_, ?_, ?_⟩, fun s ds hs => step_of_scheduled hs rfl⟩
  · rintro rfl; exact encn_zero
  · rintro rfl; decide
  · rintro rfl; decide

/-! ### Valid codewords and the syndrome (R102) -/

/-- A codeword is valid when its three parity bits are those of its data bits. -/
theorem validCodeword_iff {c : Codeword} : validCodeword c = true ↔
    c.getLsbD 6 = (c.getLsbD 4 ^^ c.getLsbD 2 ^^ c.getLsbD 0) ∧ c.getLsbD 5 = (c.getLsbD 4 ^^ c.getLsbD 1 ^^ c.getLsbD 0) ∧
      c.getLsbD 3 = (c.getLsbD 2 ^^ c.getLsbD 1 ^^ c.getLsbD 0) := by
  simp only [validCodeword, Bool.and_eq_true, beq_iff_eq, and_assoc]

theorem validCodeword_encn (n : Nibble) : validCodeword (encn n) = true := by
  simp only [validCodeword_iff, encn_6, encn_5, encn_4, encn_3, encn_2, encn_1, encn_0, and_self]

/-- A valid codeword is the encoding of its data bits. -/
theorem encn_of_validCodeword {c : Codeword} (h : validCodeword c = true) :
    encn (bits4 (c.getLsbD 4) (c.getLsbD 2) (c.getLsbD 1) (c.getLsbD 0)) = c := by
  obtain ⟨h6, h5, h3⟩ := validCodeword_iff.mp h
  simp only [encn, bits4_3, bits4_2, bits4_1, bits4_0]
  rw [← h6, ← h5, ← h3, bits7_of_getLsbD]

/-- Bit `i` of a codeword is bit `i + 1` of its frame. -/
theorem getLsbD_succ_append_bit (c : Codeword) (x : BitVec 1) (i : Nat) : (c ++ x).getLsbD (i + 1) = c.getLsbD i := by
  rw [BitVec.getLsbD_append, if_neg (by omega), Nat.add_sub_cancel]

theorem bits3_eq_zero_iff {b2 b1 b0 : Bool} : bits3 b2 b1 b0 = 0#3 ↔ b2 = false ∧ b1 = false ∧ b0 = false := by
  revert b2 b1 b0; decide

/-- The syndrome compares each parity bit with its recomputation, so it is zero on the frames of valid codewords. -/
theorem syndrome_append_bit_eq_zero_iff {c : Codeword} {x : BitVec 1} :
    syndrome (c ++ x) = 0#3 ↔ validCodeword c = true := by
  simp only [syndrome, getLsbD_succ_append_bit, bits3_eq_zero_iff, validCodeword_iff, Bool.xor_assoc,
    bne_eq_false_iff_eq]
  exact ⟨fun ⟨h3, h5, h6⟩ => ⟨h6, h5, h3⟩, fun ⟨h6, h5, h3⟩ => ⟨h3, h5, h6⟩⟩

/-- Settles O15: an encoded nibble is a valid codeword. -/
theorem parityRecomputes : Obligations.ParityRecomputes := by
  intro n
  obtain ⟨h6, h5, h3⟩ := validCodeword_iff.mp (validCodeword_encn n)
  exact ⟨h6, h5, h3, fun x => syndrome_append_bit_eq_zero_iff.mpr (validCodeword_encn n)⟩

/-! ### Linearity (R103, R120) -/

theorem encn_xor (a b : Nibble) : encn (a ^^^ b) = encn a ^^^ encn b := by
  simp only [encn, bits7_xor, BitVec.getLsbD_xor, Bool.xor_assoc, Bool.xor_left_comm]

/-- Settles O16: linearity from the equations of the bits, and the two matrices on the 16 nibbles and the 7 positions. -/
theorem encnIsLinear : Obligations.EncnIsLinear := by
  refine ⟨encn_xor, encn_zero, by decide, fun k hlow hhigh => ?_⟩
  interval_cases k <;> decide

/-! ### Distance and covering (R104) -/

/-- The weight of a difference is at most the sum of the weights. -/
theorem ones_xor_le (c d : Codeword) : ones (c ^^^ d) ≤ ones c + ones d := by
  simp only [ones, BitVec.getLsbD_xor]
  induction List.range 7 with
  | nil => simp
  | cons i is ih =>
    simp only [List.countP_cons]
    cases c.getLsbD i <;> cases d.getLsbD i <;> simp <;> omega

theorem ones_eq_zero_iff {c : Codeword} : ones c = 0 ↔ c = 0#7 := by
  revert c; decide

/-- R104 (b): the lightest codeword but zero has weight 3. -/
theorem three_le_ones_encn : ∀ n : Nibble, n ≠ 0#4 → 3 ≤ ones (encn n) := by
  decide

/-- R104 (b): by linearity the difference of two codewords is a codeword. -/
theorem three_le_ones_encn_xor {a b : Nibble} (h : a ≠ b) : 3 ≤ ones (encn a ^^^ encn b) := by
  rw [← encn_xor]
  exact three_le_ones_encn _ fun hzero => h (BitVec.xor_eq_zero_iff.mp hzero)

/-- R104 (c): the nibble that DECN answers has a codeword within one bit of the value received. -/
theorem ones_xor_encn_decn_le_one : ∀ c : Codeword, ones (c ^^^ encn (decn (frameOf c 0#1)).1) ≤ 1 := by
  decide

/-- R104 (c): no value is within one bit of two codewords. -/
theorem eq_of_ones_xor_encn_le_one {c : Codeword} {k n : Nibble} (hk : ones (c ^^^ encn k) ≤ 1)
    (hn : ones (c ^^^ encn n) ≤ 1) : k = n := by
  by_contra hne
  have hdist : 3 ≤ ones (encn k ^^^ encn n) := three_le_ones_encn_xor hne
  have hsum : encn k ^^^ encn n = (c ^^^ encn k) ^^^ (c ^^^ encn n) := by
    rw [BitVec.xor_comm c (encn k), BitVec.xor_assoc, ← BitVec.xor_assoc c c, BitVec.xor_self, BitVec.zero_xor]
  have htriangle := ones_xor_le (c ^^^ encn k) (c ^^^ encn n)
  rw [← hsum] at htriangle
  omega

/-- A value is valid when the codeword within one bit of it is the value itself. -/
theorem ones_xor_encn_eq_zero_iff {c : Codeword} {n : Nibble} (hn : ones (c ^^^ encn n) ≤ 1) :
    ones (c ^^^ encn n) = 0 ↔ validCodeword c = true := by
  rw [ones_eq_zero_iff, BitVec.xor_eq_zero_iff]
  constructor
  · rintro rfl
    exact validCodeword_encn n
  · intro hvalid
    have hself := encn_of_validCodeword hvalid
    have hk : ones (c ^^^ encn (bits4 (c.getLsbD 4) (c.getLsbD 2) (c.getLsbD 1) (c.getLsbD 0))) ≤ 1 := by
      rw [hself, BitVec.xor_self, ones_eq_zero_iff.mpr rfl]
      exact Nat.zero_le 1
    rw [← eq_of_ones_xor_encn_le_one hk hn, hself]

/-- Settles O17: injectivity and uniqueness from the distance, the nearest codeword from DECN. -/
theorem codeDistanceAndCovering : Obligations.CodeDistanceAndCovering := by
  refine ⟨fun a b heq => ?_, fun a b => three_le_ones_encn_xor, ⟨0x0#4, 0x2#4, by decide⟩, fun c => ?_, by decide⟩
  · by_contra hne
    have hdist := three_le_ones_encn_xor hne
    rw [heq, BitVec.xor_self, ones_eq_zero_iff.mpr rfl] at hdist
    omega
  · have hn := ones_xor_encn_decn_le_one c
    exact ⟨_, hn, ones_xor_encn_eq_zero_iff hn, fun k hk => eq_of_ones_xor_encn_le_one hk hn⟩

end Sys2Proof.Machine
end

section
/-! PROOFS of the family 41_hamming_74_decoder_syndrome.md: the syndrome is linear (R118), correction is one exclusive-or that
leads to a valid codeword (R112, R113), so DECN finds the nearest codeword (R118) and cannot see p4 (R116); DECN's ports
bit by bit (R111). -/

namespace Sys2Proof.Machine

/-! ### The syndrome of a frame (R112) -/

theorem syndrome_0 (f : Frame) :
    (syndrome f).getLsbD 0 = (f.getLsbD 7 ^^ f.getLsbD 5 ^^ f.getLsbD 3 ^^ f.getLsbD 1) := bits3_0 ..
theorem syndrome_1 (f : Frame) :
    (syndrome f).getLsbD 1 = (f.getLsbD 6 ^^ f.getLsbD 5 ^^ f.getLsbD 2 ^^ f.getLsbD 1) := bits3_1 ..
theorem syndrome_2 (f : Frame) :
    (syndrome f).getLsbD 2 = (f.getLsbD 4 ^^ f.getLsbD 3 ^^ f.getLsbD 2 ^^ f.getLsbD 1) := bits3_2 ..

theorem syndrome_xor (a b : Frame) : syndrome (a ^^^ b) = syndrome a ^^^ syndrome b := by
  apply BitVec.eq_of_getLsbD_eq
  intro i hi
  interval_cases i <;>
    simp only [BitVec.getLsbD_xor, syndrome_0, syndrome_1, syndrome_2, Bool.xor_assoc, Bool.xor_left_comm]

theorem syndrome_positionMask {k : Nat} (hlow : 1 ≤ k) (hhigh : k ≤ 7) : syndrome (positionMask k) = BitVec.ofNat 3 k := by
  obtain ⟨-, -, -, hcolumn⟩ := encnIsLinear
  exact hcolumn k hlow hhigh

/-- The mask of the position 0, which no frame has, inverts nothing. -/
theorem positionMask_zero : positionMask (0 : Syndrome).toNat = 0#8 := by decide

/-- The mask that a syndrome selects has that syndrome. -/
theorem syndrome_positionMask_toNat (v : Syndrome) : syndrome (positionMask v.toNat) = v := by
  revert v; decide

/-- A frame is its seven bits above p4, then p4. -/
theorem append_p4 (f : Frame) : f.extractLsb' 1 7 ++ f.extractLsb' 0 1 = f := by
  rw [BitVec.extractLsb'_append_extractLsb'_eq_extractLsb' (Nat.zero_add 1).symm]
  exact BitVec.extractLsb'_eq_self

/-- The syndrome is zero when the seven bits above p4 are a valid codeword. -/
theorem syndrome_eq_zero_iff {f : Frame} : syndrome f = 0#3 ↔ validCodeword (f.extractLsb' 1 7) = true := by
  rw [← syndrome_append_bit_eq_zero_iff, append_p4]

/-! ### Correction (R113, R114) -/

/-- Correction is one exclusive-or, under the syndrome 0 with the mask that inverts nothing. -/
theorem correct_eq_xor (f : Frame) (v : Syndrome) : correct f v = f ^^^ positionMask v.toNat := by
  unfold correct
  split
  case isTrue hv => rw [hv, positionMask_zero, BitVec.xor_zero]
  case isFalse => rfl

theorem getLsbD_positionMask_toNat : ∀ v : Syndrome, ∀ i < 8,
    (positionMask v.toNat).getLsbD i = decide (v ≠ 0#3 ∧ i = 8 - v.toNat) := by
  decide

theorem getLsbD_correct (f : Frame) (v : Syndrome) {i : Nat} (hi : i < 8) :
    (correct f v).getLsbD i = (f.getLsbD i ^^ decide (v ≠ 0#3 ∧ i = 8 - v.toNat)) := by
  rw [correct_eq_xor, BitVec.getLsbD_xor, getLsbD_positionMask_toNat v i hi]

/-- Correction never inverts p4: no syndrome is 8. -/
theorem correct_0 (f : Frame) (v : Syndrome) : (correct f v).getLsbD 0 = f.getLsbD 0 := by
  have hv : ¬ (v ≠ 0#3 ∧ 0 = 8 - v.toNat) := by omega
  rw [getLsbD_correct f v (by decide), decide_eq_false hv, Bool.xor_false]

/-- The corrected frame has syndrome 0: the mask that is inverted has the frame's own syndrome. -/
theorem syndrome_correct (f : Frame) : syndrome (correct f (syndrome f)) = 0#3 := by
  rw [correct_eq_xor, syndrome_xor, syndrome_positionMask_toNat, BitVec.xor_self]

/-- Extraction reads the data bits of the seven bits above p4. -/
theorem extract_append_bit (c : Codeword) (x : BitVec 1) :
    extract (c ++ x) = bits4 (c.getLsbD 4) (c.getLsbD 2) (c.getLsbD 1) (c.getLsbD 0) := by
  simp only [extract, getLsbD_succ_append_bit]

/-- A nibble is the concatenation of its bits. -/
theorem bits4_of_getLsbD (n : Nibble) : bits4 (n.getLsbD 3) (n.getLsbD 2) (n.getLsbD 1) (n.getLsbD 0) = n := by
  revert n; decide

theorem extract_encn_append_bit (n : Nibble) (x : BitVec 1) : extract (encn n ++ x) = n := by
  rw [extract_append_bit, encn_4, encn_2, encn_1, encn_0, bits4_of_getLsbD]

/-- A frame whose syndrome is zero carries the codeword of the nibble that extraction reads from it. -/
theorem encn_extract_of_syndrome_eq_zero {g : Frame} (hg : syndrome g = 0#3) : encn (extract g) = g.extractLsb' 1 7 := by
  have hvalid := encn_of_validCodeword (syndrome_eq_zero_iff.mp hg)
  rwa [← extract_append_bit _ (g.extractLsb' 0 1), append_p4] at hvalid

/-! ### DECN finds the nearest codeword (R118) -/

/-- The corrected seven bits are the codeword of the nibble that DECN answers. -/
theorem extractLsb'_correct (f : Frame) : (correct f (syndrome f)).extractLsb' 1 7 = encn (decn f).1 :=
  (encn_extract_of_syndrome_eq_zero (syndrome_correct f)).symm

/-- The mask that a syndrome selects has at most one bit above p4. -/
theorem ones_positionMask_toNat_le_one (v : Syndrome) : ones ((positionMask v.toNat).extractLsb' 1 7) ≤ 1 := by
  revert v; decide

theorem ones_positionMask_xor : ∀ j < 8, ∀ k < 8, 1 ≤ j → 1 ≤ k → j ≠ k →
    ones ((positionMask j ^^^ positionMask k).extractLsb' 1 7) = 2 := by
  decide

/-- The received seven bits and the codeword of DECN's nibble differ where correction inverted. -/
theorem ones_extractLsb'_xor_encn_decn_le_one (f : Frame) : ones (f.extractLsb' 1 7 ^^^ encn (decn f).1) ≤ 1 := by
  rw [← extractLsb'_correct, correct_eq_xor, BitVec.extractLsb'_xor, ← BitVec.xor_assoc, BitVec.xor_self, BitVec.zero_xor]
  exact ones_positionMask_toNat_le_one (syndrome f)

/-- The syndrome of a codeword's frame under errors is that of the errors. -/
theorem syndrome_encn_append_bit_xor (n : Nibble) (x : BitVec 1) (e : Frame) :
    syndrome ((encn n ++ x) ^^^ e) = syndrome e := by
  rw [syndrome_xor, syndrome_append_bit_eq_zero_iff.mpr (validCodeword_encn n), BitVec.zero_xor]

/-- An error that is the mask its own syndrome selects is undone. -/
theorem decn_encn_append_bit_xor {e : Frame} (he : positionMask (syndrome e).toNat = e) (n : Nibble) (x : BitVec 1) :
    decn ((encn n ++ x) ^^^ e) = (n, syndrome e) := by
  rw [decn, syndrome_encn_append_bit_xor, correct_eq_xor, he, BitVec.xor_assoc, BitVec.xor_self, BitVec.xor_zero,
    extract_encn_append_bit]

theorem decn_encn_append_bit (n : Nibble) (x : BitVec 1) : decn (encn n ++ x) = (n, 0#3) := by
  have h := decn_encn_append_bit_xor (e := 0#8) (by decide) n x
  rwa [BitVec.xor_zero] at h

theorem decn_of_one_error (n : Nibble) (x : BitVec 1) {k : Nat} (hlow : 1 ≤ k) (hhigh : k ≤ 7) :
    decn ((encn n ++ x) ^^^ positionMask k) = (n, BitVec.ofNat 3 k) := by
  have hk : positionMask (syndrome (positionMask k)).toNat = positionMask k := by
    rw [syndrome_positionMask hlow hhigh, BitVec.toNat_ofNat, Nat.mod_eq_of_lt (by omega)]
  rw [decn_encn_append_bit_xor hk, syndrome_positionMask hlow hhigh]

/-- Two errors are two bits away from the codeword sent, and DECN's answer is at most one bit away. -/
theorem decn_of_two_errors (n : Nibble) (x : BitVec 1) {j k : Nat} (hj : 1 ≤ j) (hj7 : j ≤ 7) (hk : 1 ≤ k) (hk7 : k ≤ 7)
    (hne : j ≠ k) : (decn ((encn n ++ x) ^^^ positionMask j ^^^ positionMask k)).1 ≠ n := by
  intro heq
  have hnear := ones_extractLsb'_xor_encn_decn_le_one ((encn n ++ x) ^^^ positionMask j ^^^ positionMask k)
  have htwo := ones_positionMask_xor j (by omega) k (by omega) hj hk hne
  rw [heq, BitVec.xor_assoc, BitVec.extractLsb'_xor, Bits.high_of_append, BitVec.xor_comm (encn n), BitVec.xor_assoc,
    BitVec.xor_self, BitVec.xor_zero, htwo] at hnear
  omega

theorem syndrome_of_two_errors (n : Nibble) (x : BitVec 1) {j k : Nat} (hj : 1 ≤ j) (hj7 : j ≤ 7) (hk : 1 ≤ k)
    (hk7 : k ≤ 7) : syndrome ((encn n ++ x) ^^^ positionMask j ^^^ positionMask k) =
      BitVec.ofNat 3 j ^^^ BitVec.ofNat 3 k := by
  rw [BitVec.xor_assoc, syndrome_encn_append_bit_xor, syndrome_xor, syndrome_positionMask hj hj7,
    syndrome_positionMask hk hk7]

theorem ofNat_ne_ofNat {j k : Nat} (hj : j < 8) (hk : k < 8) (hne : j ≠ k) : BitVec.ofNat 3 j ≠ BitVec.ofNat 3 k := by
  intro heq
  have htoNat := congrArg BitVec.toNat heq
  simp only [BitVec.toNat_ofNat] at htoNat
  omega

/-- The exclusive-or of two distinct nonzero values is a third nonzero value. -/
theorem xor_ne_of_ne {w : Nat} {a b : BitVec w} (ha : a ≠ 0#w) (hb : b ≠ 0#w) (hab : a ≠ b) :
    a ^^^ b ≠ 0#w ∧ a ^^^ b ≠ a ∧ a ^^^ b ≠ b := by
  refine ⟨mt BitVec.xor_eq_zero_iff.mp hab, fun h => hb ?_, fun h => ha ?_⟩
  · rwa [← BitVec.xor_right_inj a, BitVec.xor_zero]
  · rwa [← BitVec.xor_left_inj b, BitVec.zero_xor]

/-- Settles O20: the errors' syndrome decides what is corrected, and the codeword within one bit is unique. -/
theorem decnLawsAgainstEncn : Obligations.DecnLawsAgainstEncn := by
  refine ⟨decn_encn_append_bit, fun n x k => decn_of_one_error n x, fun f => ?_, fun n x j k hj hj7 hk hk7 hne => ?_,
    syndrome_xor, fun k => syndrome_positionMask⟩
  · have hnear := ones_extractLsb'_xor_encn_decn_le_one f
    exact ⟨hnear, extractLsb'_correct f, fun k hk => eq_of_ones_xor_encn_le_one hk hnear⟩
  · exact ⟨decn_of_two_errors n x hj hj7 hk hk7 hne, syndrome_of_two_errors n x hj hj7 hk hk7,
      xor_ne_of_ne (ofNat_ne_ofNat (by omega) (by decide) (by omega)) (ofNat_ne_ofNat (by omega) (by decide) (by omega))
        (ofNat_ne_ofNat (by omega) (by omega) hne)⟩

/-! ### DECN's ports (R111) and the p4 slot (R116) -/

/-- The received parity agrees with the data exactly when the syndrome is 0. -/
theorem syndrome_eq_zero_iff_parity {f : Frame} : syndrome f = 0#3 ↔
    f.getLsbD 7 = (f.getLsbD 5 ^^ f.getLsbD 3 ^^ f.getLsbD 1) ∧ f.getLsbD 6 = (f.getLsbD 5 ^^ f.getLsbD 2 ^^ f.getLsbD 1) ∧
      f.getLsbD 4 = (f.getLsbD 3 ^^ f.getLsbD 2 ^^ f.getLsbD 1) := by
  rw [syndrome_eq_zero_iff, validCodeword_iff]
  simp

/-- Settles O18: the nibble answered is extracted from the frame corrected under the syndrome answered. -/
theorem decnResult : Obligations.DecnResult := by
  intro f s
  refine ⟨(decn f).1, syndrome f, correct f (syndrome f), decodeOfEncode (.decn f), rfl, syndrome_0 f, syndrome_1 f,
    syndrome_2 f, syndrome_eq_zero_iff_parity, fun i => getLsbD_correct f (syndrome f), correct_0 f (syndrome f),
    bits4_3 .., bits4_2 .., bits4_1 .., bits4_0 .., ?_⟩
  rintro rfl
  decide

theorem syndrome_append_bit (c : Codeword) (x y : BitVec 1) : syndrome (c ++ x) = syndrome (c ++ y) := by
  simp only [syndrome, getLsbD_succ_append_bit]

/-- DECN reads the seven bits above p4 alone: they fix the syndrome, and the nibble is that of the one codeword near them. -/
theorem decn_congr {f g : Frame} (h : f.extractLsb' 1 7 = g.extractLsb' 1 7) : decn f = decn g := by
  have hnear := ones_extractLsb'_xor_encn_decn_le_one f
  rw [h] at hnear
  have hnibble := eq_of_ones_xor_encn_le_one hnear (ones_extractLsb'_xor_encn_decn_le_one g)
  have hsyndrome : syndrome f = syndrome g := by
    rw [← append_p4 f, h, syndrome_append_bit _ _ (g.extractLsb' 0 1), append_p4]
  exact Prod.ext hnibble hsyndrome

/-- Settles O19: inverting p4 leaves the seven bits above it. -/
theorem fourthParitySlotIgnored : Obligations.FourthParitySlotIgnored := by
  refine ⟨fun f => decn_congr ?_, fun f g => decn_congr⟩
  have hmask : (0b00000001#8).extractLsb' 1 7 = 0#7 := by decide
  rw [BitVec.extractLsb'_xor, hmask, BitVec.xor_zero]

end Sys2Proof.Machine
end

section
/-! PROOFS of the family 42_bit_interleaver.md: the blocks' two ports as one wire map per layout (R130 to R134), its inverse and
its linearity (R135), the pad (R136), which error masks a received pair survives (R137), and the other layout's pairs (R138). -/

namespace Sys2Proof.Machine

/-! ### The wires of a layout (R131 to R134) -/

/-- The bit of the pair that carries bit `k` of the low codeword. -/
def lowWire (m : Mode) (k : Nat) : Nat :=
  match m with
  | .concatenated => 9 + k
  | .interleaved => 2 * k + 3

/-- The bit of the pair that carries bit `k` of the high codeword. -/
def highWire (m : Mode) (k : Nat) : Nat :=
  match m with
  | .concatenated => 2 + k
  | .interleaved => 2 * k + 2

/-- A bit of a pair is one of the pad or carries one bit of a codeword. -/
theorem wire_cases (m : Mode) {i : Nat} (hi : i < 16) :
    i < 2 ∨ (∃ k < 7, i = lowWire m k) ∨ ∃ k < 7, i = highWire m k := by
  by_cases hpad : i < 2
  · exact .inl hpad
  cases m with
  | concatenated =>
    by_cases hlow : 9 ≤ i
    · exact .inr (.inl ⟨i - 9, by omega, by simp only [lowWire]; omega⟩)
    · exact .inr (.inr ⟨i - 2, by omega, by simp only [highWire]; omega⟩)
  | interleaved =>
    by_cases hlow : i % 2 = 1
    · exact .inr (.inl ⟨(i - 3) / 2, by omega, by simp only [lowWire]; omega⟩)
    · exact .inr (.inr ⟨(i - 2) / 2, by omega, by simp only [highWire]; omega⟩)

/-- Two pairs are equal when their pads and the bits of their codewords are. -/
theorem pair_ext (m : Mode) {V W : Pair} (hpad : ∀ i < 2, V.getLsbD i = W.getLsbD i)
    (hwires : ∀ k < 7, V.getLsbD (lowWire m k) = W.getLsbD (lowWire m k) ∧
      V.getLsbD (highWire m k) = W.getLsbD (highWire m k)) : V = W := by
  apply BitVec.eq_of_getLsbD_eq
  intro i hi
  obtain hi | ⟨k, hk, rfl⟩ | ⟨k, hk, rfl⟩ := wire_cases m hi
  · exact hpad i hi
  · exact (hwires k hk).1
  · exact (hwires k hk).2

/-- A bit of a pair is one of its second byte or, above, one of its first. -/
theorem getLsbD_pair (b0 b1 : Byte) (i : Nat) :
    (b0 ++ b1 : BitVec 16).getLsbD i = if i < 8 then b1.getLsbD i else b0.getLsbD (i - 8) :=
  BitVec.getLsbD_append

/-- The forward port under `m` as one pair. -/
def forwardPair (m : Mode) (l h : Codeword) : Pair := (forward m l h).1 ++ (forward m l h).2

/-- The forward port puts the bits of the two codewords on their wires. -/
theorem forwardPair_wires (m : Mode) (l h : Codeword) {k : Nat} (hk : k < 7) :
    (forwardPair m l h).getLsbD (lowWire m k) = l.getLsbD k ∧
      (forwardPair m l h).getLsbD (highWire m k) = h.getLsbD k := by
  rw [forwardPair, getLsbD_pair, getLsbD_pair]
  cases m <;> interval_cases k <;>
    simp only [forward, cat, ilv, lowWire, highWire, Nat.reduceMul, Nat.reduceAdd, Nat.reduceSub, Nat.reduceLT,
      if_true, if_false, bits8_0, bits8_1, bits8_2, bits8_3, bits8_4, bits8_5, bits8_6, bits8_7, and_self]

theorem forward_padBit (m : Mode) (l h : Codeword) {i : Nat} (hi : i < 2) : (forward m l h).2.getLsbD i = false := by
  cases m <;> interval_cases i <;> simp only [forward, cat, ilv, bits8_0, bits8_1]

theorem forwardPair_pad (m : Mode) (l h : Codeword) {i : Nat} (hi : i < 2) : (forwardPair m l h).getLsbD i = false := by
  rw [forwardPair, getLsbD_pair, if_pos (by omega), forward_padBit m l h hi]

theorem forward_pad (m : Mode) (l h : Codeword) : (forward m l h).2.extractLsb' 0 2 = 0b00#2 := by
  apply BitVec.eq_of_getLsbD_eq
  intro i hi
  rw [BitVec.getLsbD_extractLsb', Nat.zero_add, forward_padBit m l h hi, Bool.and_false, BitVec.getLsbD_zero]

/-- The inverse port reads the bits of the two codewords from their wires. -/
theorem inverse_wires (m : Mode) (b0 b1 : Byte) {k : Nat} (hk : k < 7) :
    (inverse m b0 b1).1.getLsbD k = (b0 ++ b1 : BitVec 16).getLsbD (lowWire m k) ∧
      (inverse m b0 b1).2.getLsbD k = (b0 ++ b1 : BitVec 16).getLsbD (highWire m k) := by
  rw [getLsbD_pair, getLsbD_pair]
  cases m <;> interval_cases k <;>
    simp only [inverse, dcat, dilv, lowWire, highWire, Nat.reduceMul, Nat.reduceAdd, Nat.reduceSub, Nat.reduceLT,
      if_true, if_false, bits7_0, bits7_1, bits7_2, bits7_3, bits7_4, bits7_5, bits7_6, and_self]

/-! ### The inverse laws and linearity (R135) -/

/-- What the forward port puts on a codeword's wires the inverse port reads from them. -/
theorem inverse_forward (m : Mode) (l h : Codeword) : inverse m (forward m l h).1 (forward m l h).2 = (l, h) := by
  apply Prod.ext <;> apply BitVec.eq_of_getLsbD_eq <;> intro k hk
  · exact (inverse_wires m _ _ hk).1.trans (forwardPair_wires m l h hk).1
  · exact (inverse_wires m _ _ hk).2.trans (forwardPair_wires m l h hk).2

/-- The mask 0xFFFC keeps all bits but the pad. -/
theorem getLsbD_and_0xFFFC (W : Pair) {i : Nat} (hi : i < 16) :
    (W &&& 0xFFFC#16).getLsbD i = (W.getLsbD i && decide (2 ≤ i)) := by
  have hmask : ∀ i < 16, (0xFFFC#16).getLsbD i = decide (2 ≤ i) := by decide
  rw [BitVec.getLsbD_and, hmask i hi]

theorem wire_bounds (m : Mode) {k : Nat} (hk : k < 7) :
    (2 ≤ lowWire m k ∧ lowWire m k < 16) ∧ 2 ≤ highWire m k ∧ highWire m k < 16 := by
  cases m <;> simp only [lowWire, highWire] <;> omega

/-- There and back the codewords' wires carry what they carried, and the pad is cleared. -/
theorem forwardPair_inverse (m : Mode) (b0 b1 : Byte) :
    forwardPair m (inverse m b0 b1).1 (inverse m b0 b1).2 = (b0 ++ b1 : BitVec 16) &&& 0xFFFC#16 := by
  refine pair_ext m (fun i hi => ?_) fun k hk => ?_
  · rw [forwardPair_pad m _ _ hi, getLsbD_and_0xFFFC _ (by omega), decide_eq_false (by omega), Bool.and_false]
  · obtain ⟨hlow, hhigh⟩ := forwardPair_wires m (inverse m b0 b1).1 (inverse m b0 b1).2 hk
    obtain ⟨hlow', hhigh'⟩ := inverse_wires m b0 b1 hk
    obtain ⟨⟨hlowpad, hlowtop⟩, hhighpad, hhightop⟩ := wire_bounds m hk
    rw [getLsbD_and_0xFFFC _ hlowtop, getLsbD_and_0xFFFC _ hhightop, decide_eq_true hlowpad, decide_eq_true hhighpad,
      Bool.and_true, Bool.and_true]
    exact ⟨hlow.trans hlow', hhigh.trans hhigh'⟩

/-- The forward port moves wires, so it is linear over exclusive-or. -/
theorem forward_xor (m : Mode) (l h a b : Codeword) : forward m (l ^^^ a) (h ^^^ b) =
    ((forward m l h).1 ^^^ (forward m a b).1, (forward m l h).2 ^^^ (forward m a b).2) := by
  cases m <;> simp only [forward, cat, ilv, bits8_xor, BitVec.getLsbD_xor, Bool.xor_false]

/-- The inverse port moves wires, so it is linear over exclusive-or. -/
theorem inverse_xor (m : Mode) (b0 b1 e0 e1 : Byte) : inverse m (b0 ^^^ e0) (b1 ^^^ e1) =
    ((inverse m b0 b1).1 ^^^ (inverse m e0 e1).1, (inverse m b0 b1).2 ^^^ (inverse m e0 e1).2) := by
  cases m <;> simp only [inverse, dcat, dilv, bits7_xor, BitVec.getLsbD_xor]

/-- Settles O27: each law of the ports, under the one mode and under the other. -/
theorem interleaverInverseLaws : Obligations.InterleaverInverseLaws :=
  ⟨fun l h => ⟨inverse_forward .concatenated l h, inverse_forward .interleaved l h⟩,
    fun b0 b1 => ⟨forwardPair_inverse .concatenated b0 b1, forwardPair_inverse .interleaved b0 b1⟩,
    fun l h a b => ⟨forward_xor .interleaved l h a b, forward_xor .concatenated l h a b⟩,
    fun b0 b1 e0 e1 => ⟨inverse_xor .concatenated b0 b1 e0 e1, inverse_xor .interleaved b0 b1 e0 e1⟩⟩

/-! ### The four operations (R131 to R134) -/

/-- The operation that `MODE` selects on the forward port writes that port. -/
theorem exec_forwardOp {s : State} {m : Mode} (hm : s.mode = m) (l h : Codeword) :
    exec (forwardOp m l h) s = .next (s.withPorts (s.ports.withForward l h (forward m l h))) := by
  cases m <;> simp [exec, forwardOp, execCat, execIlv, State.underMode, hm, forward]

/-- The operation that `MODE` selects on the inverse port writes that port. -/
theorem exec_inverseOp {s : State} {m : Mode} (hm : s.mode = m) (b0 b1 : Byte) :
    exec (inverseOp m b0 b1) s = .next (s.withPorts (s.ports.withInverse b0 b1 (inverse m b0 b1))) := by
  cases m <;> simp [exec, inverseOp, execDcat, execDilv, State.underMode, hm, inverse]

/-- A bit of two codewords and a pad is one of the field it falls in. -/
theorem getLsbD_three_fields (l h : Codeword) (p : BitVec 2) (i : Nat) : (l ++ h ++ p : BitVec 16).getLsbD i =
    if i < 2 then p.getLsbD i else if i < 9 then h.getLsbD (i - 2) else l.getLsbD (i - 9) := by
  have hsecond : i - 2 < 7 ↔ i < 9 := by omega
  rw [BitVec.getLsbD_append, BitVec.getLsbD_append, Nat.sub_sub]
  simp only [hsecond]

/-- R131: the concatenated pair is the low codeword, the high codeword and the pad, in this order. -/
theorem cat_append (l h : Codeword) : ((cat l h).1 ++ (cat l h).2 : BitVec 16) = l ++ h ++ 0b00#2 := by
  refine pair_ext .concatenated (fun i hi => ?_) fun k hk => ?_
  · rw [getLsbD_three_fields, if_pos hi, BitVec.getLsbD_zero]
    exact forwardPair_pad .concatenated l h hi
  · simp only [lowWire, highWire]
    rw [getLsbD_three_fields, getLsbD_three_fields, if_neg (by omega), if_neg (by omega), if_neg (by omega),
      if_pos (by omega), Nat.add_sub_cancel_left, Nat.add_sub_cancel_left]
    exact forwardPair_wires .concatenated l h hk

/-- R131 with shifts. -/
theorem cat_shifts (l h : Codeword) : (cat l h).1 = (l.setWidth 8 <<< 1) ||| (h.setWidth 8 >>> 6) ∧
    (cat l h).2 = (h.setWidth 8 &&& 0x3F#8) <<< 2 := by
  constructor <;> refine .trans ?_ (bits8_of_getLsbD _)
  · simp [cat]
  · simp [cat]

/-- Settles O23: CAT is the forward port under CONCATENATED, its pair three fields side by side. -/
theorem catResult : Obligations.CatResult := by
  intro l h s hm
  obtain ⟨hfirst, hsecond⟩ := cat_shifts l h
  refine ⟨(cat l h).1, (cat l h).2, decodeOfEncode (.cat l h), exec_forwardOp hm l h, cat_append l h, hfirst, hsecond,
    forward_pad .concatenated l h, ?_, ?_, ?_⟩
  all_goals rintro rfl rfl; decide

/-- The wires of the interleaved layout counted from the top of the pair. -/
theorem interleaved_wires {j : Nat} (hj : j < 7) :
    15 - 2 * j = lowWire .interleaved (6 - j) ∧ 14 - 2 * j = highWire .interleaved (6 - j) := by
  simp only [lowWire, highWire]
  omega

/-- Settles O24: ILV is the forward port under INTERLEAVED, its wires counted from the top. -/
theorem ilvResult : Obligations.IlvResult := by
  intro l h s hm
  refine ⟨(ilv l h).1, (ilv l h).2, decodeOfEncode (.ilv l h), exec_forwardOp hm l h, fun j hj => ?_,
    forward_pad .interleaved l h, ?_, ?_, ?_, ?_, ?_⟩
  · obtain ⟨hlow, hhigh⟩ := interleaved_wires hj
    rw [hlow, hhigh]
    exact forwardPair_wires .interleaved l h (by omega)
  all_goals rintro rfl rfl; decide

/-- R133: the two codewords are slices of the pair. -/
theorem dcat_slices (b0 b1 : Byte) : (dcat b0 b1).1 = (b0 ++ b1 : BitVec 16).extractLsb' 9 7 ∧
    (dcat b0 b1).2 = (b0 ++ b1 : BitVec 16).extractLsb' 2 7 := by
  constructor <;> apply BitVec.eq_of_getLsbD_eq <;> intro k hk <;>
    rw [BitVec.getLsbD_extractLsb', decide_eq_true hk, Bool.true_and]
  · exact (inverse_wires .concatenated b0 b1 hk).1
  · exact (inverse_wires .concatenated b0 b1 hk).2

/-- The slice of the high codeword is the last bit of the first byte and the first six of the second. -/
theorem extractLsb'_pair_across (b0 b1 : Byte) : (b0 ++ b1 : BitVec 16).extractLsb' 2 7 =
    b0.extractLsb' 0 1 ++ b1.extractLsb' 2 6 := by
  have hslices : (b0 ++ b1).extractLsb' 8 1 ++ (b0 ++ b1).extractLsb' 2 6 = (b0 ++ b1).extractLsb' 2 7 :=
    BitVec.extractLsb'_append_extractLsb'_eq_extractLsb' rfl
  rw [← hslices, BitVec.extractLsb'_append_eq_of_le (by decide), BitVec.extractLsb'_append_eq_of_add_le (by decide)]

/-- Settles O25: DCAT is the inverse port under CONCATENATED, which slices the pair. -/
theorem dcatResult : Obligations.DcatResult := by
  intro b0 b1 s hm
  obtain ⟨hlow, hhigh⟩ := dcat_slices b0 b1
  refine ⟨(dcat b0 b1).1, (dcat b0 b1).2, decodeOfEncode (.dcat b0 b1), exec_inverseOp hm b0 b1, hlow, hhigh,
    hlow.trans (BitVec.extractLsb'_append_eq_of_le (by decide)), hhigh.trans (extractLsb'_pair_across b0 b1), ?_⟩
  rintro rfl rfl
  decide

/-- Settles O26: DILV is the inverse port under INTERLEAVED, its wires counted from the top. -/
theorem dilvResult : Obligations.DilvResult := by
  intro b0 b1 s hm
  refine ⟨(dilv b0 b1).1, (dilv b0 b1).2, decodeOfEncode (.dilv b0 b1), exec_inverseOp hm b0 b1, fun j hj => ?_, ?_⟩
  · obtain ⟨hlow, hhigh⟩ := interleaved_wires hj
    rw [hlow, hhigh]
    exact inverse_wires .interleaved b0 b1 (by omega)
  · rintro rfl rfl; decide

/-! ### The pad (R136) -/

/-- A mask on the pad bits reaches no codeword. -/
theorem inverse_padMask (m : Mode) {pad : Byte} (hpad : pad.toNat < 4) : inverse m 0#8 pad = (0#7, 0#7) := by
  have hmasks : ∀ v < 4, inverse m 0#8 (BitVec.ofNat 8 v) = (0#7, 0#7) := by cases m <;> decide
  have hmask := hmasks pad.toNat hpad
  rwa [BitVec.ofNat_toNat, BitVec.setWidth_eq] at hmask

theorem inverse_xor_padMask (m : Mode) (b0 b1 : Byte) {pad : Byte} (hpad : pad.toNat < 4) :
    inverse m b0 (b1 ^^^ pad) = inverse m b0 b1 := by
  have h := inverse_xor m b0 b1 0#8 pad
  rwa [inverse_padMask m hpad, BitVec.xor_zero, BitVec.xor_zero, BitVec.xor_zero] at h

/-- Settles O28: what DECB1 emits depends on the pair through its two codewords alone. -/
theorem padBitsZeroAndIgnored : Obligations.PadBitsZeroAndIgnored := by
  refine ⟨forward_pad, fun m b => forward_pad m _ _, fun m b0 b1 pad hpad => ?_⟩
  have hsame := inverse_xor_padMask m b0 b1 hpad
  exact ⟨hsame, by rw [decodePair, hsame, decodePair]⟩

/-! ### What a received pair decodes to (R137) -/

/-- DECN answers the one nibble whose codeword is within one bit of the value received. -/
theorem decn_append_bit_eq_iff {c : Codeword} {x : BitVec 1} {k : Nibble} :
    (decn (c ++ x)).1 = k ↔ ones (c ^^^ encn k) ≤ 1 := by
  have hnear := ones_extractLsb'_xor_encn_decn_le_one (c ++ x)
  rw [Bits.high_of_append] at hnear
  exact ⟨fun h => h ▸ hnear, fun h => eq_of_ones_xor_encn_le_one hnear h⟩

/-- A byte is two given nibbles exactly when they are its own. -/
theorem byteOfNibbles_eq_iff {hi lo : Nibble} {b : Byte} : byteOfNibbles hi lo = b ↔ lo = lsNibble b ∧ hi = msNibble b := by
  constructor
  · rintro rfl
    exact ⟨(Bits.low_of_append hi lo).symm, (Bits.high_of_append hi lo).symm⟩
  · rintro ⟨rfl, rfl⟩
    exact byteOfNibbles_nibbles b

theorem decodePair_eq_iff {m : Mode} {b0 b1 b : Byte} : decodePair m b0 b1 = b ↔
    ones ((inverse m b0 b1).1 ^^^ encn (lsNibble b)) ≤ 1 ∧ ones ((inverse m b0 b1).2 ^^^ encn (msNibble b)) ≤ 1 := by
  rw [decodePair, byteOfNibbles_eq_iff, frameOf, frameOf, decn_append_bit_eq_iff, decn_append_bit_eq_iff]

theorem correctable_iff {m : Mode} {e0 e1 : Byte} : correctable m e0 e1 = true ↔
    ones (inverse m e0 e1).1 ≤ 1 ∧ ones (inverse m e0 e1).2 ≤ 1 := by
  rw [correctable, Bool.and_eq_true, decide_eq_true_iff, decide_eq_true_iff]

/-- Exclusive-or with the value sent leaves the error. -/
theorem xor_xor_self_left {w : Nat} (c e : BitVec w) : c ^^^ e ^^^ c = e := by
  rw [BitVec.xor_comm c e, BitVec.xor_assoc, BitVec.xor_self, BitVec.xor_zero]

/-- Settles O29: by linearity each received codeword differs from the one sent by its own part of the mask. -/
theorem pairRecoveredExactlyWhenCorrectable : Obligations.PairRecoveredExactlyWhenCorrectable := by
  intro m b e0 e1
  rw [decodePair_eq_iff, correctable_iff, inverse_xor, encodeByte, inverse_forward]
  simp only [xor_xor_self_left]

/-! ### Bursts (R137) -/

theorem ones_le_one_of_unique {c : Codeword} (h : ∀ i < 7, ∀ j < 7, c.getLsbD i = true → c.getLsbD j = true → i = j) :
    ones c ≤ 1 := by
  revert c
  decide

/-- A codeword on every second bit of a pair meets at most one of two adjacent bits. -/
theorem ones_le_one_of_every_second_bit {c : Codeword} {E : Pair} {r i : Nat}
    (hc : ∀ k < 7, c.getLsbD k = E.getLsbD (2 * k + r)) (hE : ∀ j : Nat, E.getLsbD j = true → j = i ∨ j = i + 1) :
    ones c ≤ 1 := by
  refine ones_le_one_of_unique fun j hj k hk hbitj hbitk => ?_
  have hwirej := hE _ ((hc j hj).symm.trans hbitj)
  have hwirek := hE _ ((hc k hk).symm.trans hbitk)
  omega

/-- A pair is its two bytes. -/
theorem pair_append (E : Pair) : E.extractLsb' 8 8 ++ E.extractLsb' 0 8 = E := by
  rw [BitVec.extractLsb'_append_extractLsb'_eq_extractLsb' (Nat.zero_add 8).symm]
  exact BitVec.extractLsb'_eq_self

/-- R137 (b): two adjacent bits of an interleaved pair are never two bits of one codeword. -/
theorem correctable_of_adjacent {E : Pair} {i : Nat} (hE : ∀ j : Nat, E.getLsbD j = true → j = i ∨ j = i + 1) :
    correctable .interleaved (E.extractLsb' 8 8) (E.extractLsb' 0 8) = true := by
  have hwires := fun k (hk : k < 7) => inverse_wires .interleaved (E.extractLsb' 8 8) (E.extractLsb' 0 8) hk
  rw [pair_append] at hwires
  exact correctable_iff.mpr ⟨ones_le_one_of_every_second_bit (fun k hk => (hwires k hk).1) hE,
    ones_le_one_of_every_second_bit (fun k hk => (hwires k hk).2) hE⟩

/-- R137 (c): a single bit is one bit of one codeword. -/
theorem correctable_concatenated_bit : ∀ i < 16,
    correctable .concatenated ((1#16 <<< i).extractLsb' 8 8) ((1#16 <<< i).extractLsb' 0 8) = true := by
  decide

theorem correctable_concatenated_burst_iff : ∀ i < 15,
    (correctable .concatenated ((3#16 <<< i).extractLsb' 8 8) ((3#16 <<< i).extractLsb' 0 8) = true ↔ i = 8 ∨ i ≤ 1) := by
  decide

/-- R137 (d): a byte carries more than one bit of one of the codewords. -/
theorem not_correctable_byte (m : Mode) : ¬ correctable m 0xFF#8 0x00#8 = true ∧ ¬ correctable m 0x00#8 0xFF#8 = true := by
  cases m <;> decide

/-- Settles O30: each burst is recovered as its mask is correctable (O29). -/
theorem burstErrors : Obligations.BurstErrors := by
  refine ⟨fun b E i hE => ?_, fun b i hi => ?_, fun b i hi => ?_, fun m b => ?_, decodePair_eq_iff.mpr (by decide),
    decodePair_eq_iff.mpr (by decide)⟩
  · exact (pairRecoveredExactlyWhenCorrectable ..).mpr (correctable_of_adjacent hE)
  · exact (pairRecoveredExactlyWhenCorrectable ..).mpr (correctable_concatenated_bit i hi)
  · exact (pairRecoveredExactlyWhenCorrectable ..).trans (correctable_concatenated_burst_iff i hi)
  · obtain ⟨hfirst, hsecond⟩ := not_correctable_byte m
    have h := pairRecoveredExactlyWhenCorrectable m b
    exact ⟨fun heq => hfirst ((h 0xFF#8 0x00#8).mp (by rwa [BitVec.xor_zero])),
      fun heq => hsecond ((h 0x00#8 0xFF#8).mp (by rwa [BitVec.xor_zero]))⟩

/-! ### The other layout's pairs (R138) -/

theorem forall_byte_of_nibbles {P : Byte → Prop} (h : ∀ hi lo : Nibble, P (byteOfNibbles hi lo)) (b : Byte) : P b := by
  rw [← byteOfNibbles_nibbles b]
  exact h _ _

/-- Settles O31: whether a byte survives is a test of the errors that the wrong layout makes in its two codewords. -/
theorem modeMismatchSurvivors : Obligations.ModeMismatchSurvivors := by
  unfold Obligations.ModeMismatchSurvivors
  simp only [decodePair_eq_iff]
  exact ⟨forall_byte_of_nibbles (by decide), forall_byte_of_nibbles (by decide), by decide, by decide⟩

end Sys2Proof.Machine
end

section
/-! PROOFS of the family 43_stream_layer.md: the three transactions (R151 to R153), the stream functions element by element
(R154), the runs that compute them and the stuck end of an odd stream (R154, R157), the round trip over a channel (R155), and
the finality of what has been emitted (R156). -/

namespace Sys2Proof.Machine

/-! ### The three transactions (R151 to R153) -/

/-- Settles O32: ENCB is the forward port under `MODE` on the codewords of the byte's two nibbles. -/
theorem encbResult : Obligations.EncbResult := by
  intro b rest s hin
  refine ⟨(encodeByte s.mode b).1, (encodeByte s.mode b).2, decodeOfEncode (.encb s.mode b), execEncb_of_cons hin,
    fun hm => by rw [hm]; rfl, fun hm => by rw [hm]; rfl, forward_pad s.mode _ _, ?_, ?_, ?_, ?_⟩
  all_goals rintro rfl
  · cases s.mode <;> decide
  · cases s.mode <;> decide
  · intro hm; rw [hm]; decide
  · intro hm; rw [hm]; decide

/-- Settles O33: `pair_pending = 0` and a byte to pop are all that DECB0 asks. -/
theorem decb0Result : Obligations.Decb0Result := fun m b rest _ hp hin =>
  ⟨decodeOfEncode (.decb0 m b), exec_decb0_eq_next.mpr ⟨hp, .inr ⟨rest, hin, rfl⟩⟩⟩

/-- R116: DECN answers alike for either p4. -/
theorem decn_append_bit_congr (c : Codeword) (x y : BitVec 1) : decn (c ++ x) = decn (c ++ y) :=
  decn_congr (by rw [Bits.high_of_append, Bits.high_of_append])

/-- Settles O34: each half of the byte is DECN's nibble of its own codeword, so near that nibble's codeword (R118) and
blind to p4 (R116); the codewords are blind to the pad (O28). -/
theorem decb1Result : Obligations.Decb1Result := by
  intro b rest s hp hin
  obtain ⟨-, -, hpad⟩ := padBitsZeroAndIgnored
  refine ⟨(inverse s.mode s.pairHold b).1, (inverse s.mode s.pairHold b).2, _, _, decodeOfEncode (.decb1 s.mode b),
    execDecb1_of_cons hp hin, fun hm => by rw [hm]; rfl, fun hm => by rw [hm]; rfl,
    fun x => ⟨congrArg Prod.fst (decn_append_bit_congr _ _ x), congrArg Prod.fst (decn_append_bit_congr _ _ x)⟩,
    fun k => ⟨decn_append_bit_eq_iff, decn_append_bit_eq_iff⟩, fun pad hlt => ?_, fun hm hhold hb => ?_⟩
  · obtain ⟨-, hsame⟩ := hpad s.mode s.pairHold b pad hlt
    exact hsame.symm
  · rw [hm, hhold, hb]
    decide

/-! ### The stream functions element by element (R154, R156) -/

theorem length_encodeStream (m : Mode) (bs : List Byte) : (encodeStream m bs).length = 2 * bs.length := by
  induction bs with
  | nil => rfl
  | cons b bs ih => simp only [encodeStream, List.length_cons, ih, Nat.mul_succ]

theorem getElem?_encodeStream (m : Mode) {bs : List Byte} {i : Nat} {b : Byte} (h : bs[i]? = some b) :
    (encodeStream m bs)[2 * i]? = some (encodeByte m b).1 ∧ (encodeStream m bs)[2 * i + 1]? = some (encodeByte m b).2 := by
  induction bs generalizing i with
  | nil => cases h
  | cons b' bs ih =>
    cases i with
    | zero => cases h; exact ⟨rfl, rfl⟩
    | succ i => exact ih h

theorem encodeStream_append (m : Mode) (as bs : List Byte) :
    encodeStream m (as ++ bs) = encodeStream m as ++ encodeStream m bs := by
  induction as with
  | nil => rfl
  | cons b as ih => simp only [List.cons_append, encodeStream, ih]

/-- The decode path emits one byte for each whole pair. -/
theorem length_decodePairs (m : Mode) (ts : List Byte) : (decodePairs m ts).length = ts.length / 2 := by
  induction ts using decodePairs.induct with
  | case1 b0 b1 rest ih => simp only [decodePairs, List.length_cons, ih]; omega
  | case2 b => simp only [decodePairs, List.length_nil, List.length_singleton, Nat.reduceDiv]
  | case3 => rfl

theorem getElem?_decodePairs (m : Mode) {ts : List Byte} {i : Nat} {b0 b1 : Byte} (h0 : ts[2 * i]? = some b0)
    (h1 : ts[2 * i + 1]? = some b1) : (decodePairs m ts)[i]? = some (decodePair m b0 b1) := by
  induction ts using decodePairs.induct generalizing i with
  | case1 a0 a1 rest ih =>
    cases i with
    | zero => cases h0; cases h1; rfl
    | succ i => exact ih h0 h1
  | case2 b => cases h1
  | case3 => cases h0

theorem decodePairs_append (m : Mode) {as : List Byte} (h : as.length % 2 = 0) (bs : List Byte) :
    decodePairs m (as ++ bs) = decodePairs m as ++ decodePairs m bs := by
  induction as using decodePairs.induct with
  | case1 a0 a1 rest ih =>
    simp only [List.length_cons] at h
    simp only [List.cons_append, decodePairs, ih (by omega)]
  | case2 b => cases h
  | case3 => rfl

theorem decodeStream_of_even (m : Mode) {ts : List Byte} (h : ts.length % 2 = 0) :
    decodeStream m ts = some (decodePairs m ts) := if_pos h

theorem decodeStream_of_odd (m : Mode) {ts : List Byte} (h : ts.length % 2 = 1) : decodeStream m ts = none :=
  if_neg (by omega)

/-! ### The paths running by themselves (R154, R157) -/

theorem run_add {j : Nat} {s t : State} (h : Host.Core.run Sys2Proof.core j s = .next t) (k : Nat) :
    Host.Core.run Sys2Proof.core (j + k) s = Host.Core.run Sys2Proof.core k t := by
  induction j generalizing s with
  | zero => cases h; rw [Nat.zero_add]
  | succ j ih =>
    obtain ⟨u, hu, hrun⟩ := run_succ_inv h
    rw [Nat.succ_add, run_succ _ hu, ih hrun]

theorem run_of_step_eq_self {s : State} (h : step s = .next s) (k : Nat) : Host.Core.run Sys2Proof.core k s = .next s := by
  induction k with
  | zero => exact run_zero s
  | succ k ih => rw [run_succ k h, ih]

theorem State.withEnc_of_nil {s : State} (h : s.encIn = []) : s.withEnc [] s.encOut = s := by
  rw [← h]
  rfl

theorem State.withSchedule_of_nil {s : State} (h : s.schedule = []) : s.withSchedule [] = s := by
  rw [← h]
  rfl

theorem State.afterDecodeTurn_of_not_pending {s : State} {b : Byte} {rest : List Byte} (hp : s.pairPending = false)
    (hin : s.decIn = b :: rest) : s.afterDecodeTurn = (s.withDec rest s.decOut).withPair true b := by
  simp only [State.afterDecodeTurn, hin, hp, State.withPair, State.withDec]

theorem State.afterDecodeTurn_of_pending {s : State} {b : Byte} {rest : List Byte} (hp : s.pairPending = true)
    (hin : s.decIn = b :: rest) : s.afterDecodeTurn =
      (s.withDec rest (s.decOut ++ [decodePair s.mode s.pairHold b])).withPair false s.pairHold := by
  simp only [State.afterDecodeTurn, hin, hp, State.withPair, State.withDec]

/-- With nothing scheduled the encode path takes the byte at the head of `ENC_IN`. -/
theorem step_of_encIn_cons {s : State} (hs : s.schedule = []) {b : Byte} {rest : List Byte} (hin : s.encIn = b :: rest) :
    step s = .next (s.withEnc rest (s.encOut ++ [(encodeByte s.mode b).1, (encodeByte s.mode b).2])) := by
  have hturn : s.nextDrive = .encodeTurn := by simp [State.nextDrive, hs, hin]
  rw [step_of_encodeTurn hturn, State.advance_of_nil hs]
  simp only [State.afterEncodeTurn, hin, State.withEnc]

/-- With nothing scheduled and `ENC_IN` empty the step is a turn of the decode path. -/
theorem step_of_encIn_nil {s : State} (hs : s.schedule = []) (hin : s.encIn = []) : step s = .next s.afterDecodeTurn := by
  have hturn : s.nextDrive = .decodeTurn := by simp [State.nextDrive, hs, hin]
  rw [step_of_decodeTurn hturn, State.advance_of_nil hs]

/-- The encode path runs until `ENC_IN` is empty. -/
theorem run_encodePath {bs : List Byte} {s : State} (hs : s.schedule = []) (hin : s.encIn = bs) :
    Host.Core.run Sys2Proof.core bs.length s = .next (s.withEnc [] (s.encOut ++ encodeStream s.mode bs)) := by
  induction bs generalizing s with
  | nil =>
    rw [encodeStream, List.append_nil, State.withEnc_of_nil hin]
    exact run_zero s
  | cons b rest ih =>
    have hrest := ih (s := s.withEnc rest (s.encOut ++ [(encodeByte s.mode b).1, (encodeByte s.mode b).2])) hs rfl
    rw [List.length_cons, run_succ _ (step_of_encIn_cons hs hin), hrest, State.withEnc_encOut, List.append_assoc]
    rfl

/-- Two turns of the decode path take one pair. -/
theorem run_decodePair {s : State} (hs : s.schedule = []) (hidle : s.encIn = []) (hp : s.pairPending = false) {b0 b1 : Byte}
    {rest : List Byte} (hin : s.decIn = b0 :: b1 :: rest) : Host.Core.run Sys2Proof.core 2 s =
      .next ((s.withDec rest (s.decOut ++ [decodePair s.mode b0 b1])).withPair false b0) := by
  have hfirst := step_of_encIn_nil hs hidle
  rw [State.afterDecodeTurn_of_not_pending hp hin] at hfirst
  have hsecond := step_of_encIn_nil (s := (s.withDec (b1 :: rest) s.decOut).withPair true b0) hs hidle
  rw [State.afterDecodeTurn_of_pending rfl rfl] at hsecond
  rw [run_succ 1 hfirst, run_succ 0 hsecond]
  rfl

/-- The decode path runs through the whole pairs at the head of `DEC_IN`. -/
theorem run_decodePairs {ts rest : List Byte} (heven : ts.length % 2 = 0) {s : State} (hs : s.schedule = [])
    (hidle : s.encIn = []) (hp : s.pairPending = false) (hin : s.decIn = ts ++ rest) :
    ∃ hold, Host.Core.run Sys2Proof.core ts.length s =
      .next ((s.withDec rest (s.decOut ++ decodePairs s.mode ts)).withPair false hold) := by
  induction ts using decodePairs.induct generalizing s with
  | case1 b0 b1 ts ih =>
    simp only [List.length_cons] at heven
    have hpair := run_decodePair hs hidle hp hin
    obtain ⟨hold, hrest⟩ := ih (by omega) hs hidle rfl rfl
      (s := (s.withDec (ts ++ rest) (s.decOut ++ [decodePair s.mode b0 b1])).withPair false b0)
    refine ⟨hold, ?_⟩
    rw [List.length_cons, List.length_cons, Nat.add_assoc, Nat.add_comm]
    refine (run_add hpair _).trans (hrest.trans ?_)
    rw [State.withPair_decOut, State.withDec_decOut, List.append_assoc]
    rfl
  | case2 b => cases heven
  | case3 =>
    refine ⟨s.pairHold, ?_⟩
    rw [decodePairs, List.append_nil, ← hp, ← List.nil_append rest, ← hin]
    rfl

/-- Settles O49: the elements of the two streams, and each path's run to the end of its input. -/
theorem runsComputeStreamFunctions : Obligations.RunsComputeStreamFunctions := by
  refine ⟨fun m bs => ⟨length_encodeStream m bs, fun i b => getElem?_encodeStream m⟩, fun m ts heven => ?_,
    fun m ts => decodeStream_of_odd m, fun s hs => ?_, fun s hs hidle hp heven => ?_⟩
  · refine ⟨_, decodeStream_of_even m heven, ?_, fun i b0 b1 => getElem?_decodePairs m⟩
    rw [length_decodePairs]
    omega
  · refine ⟨_, run_encodePath hs rfl, rfl, ?_⟩
    simp [State.encodeComplete, hs, deliveriesEnc]
  · obtain ⟨hold, hrun⟩ := run_decodePairs heven hs hidle hp (List.append_nil _).symm
    refine ⟨_, hold, _, decodeStream_of_even s.mode heven, hrun, ?_, ?_⟩
    · rw [← hp]; rfl
    · simp [State.decodeComplete, hs, deliveriesDec]

/-! ### The stuck end of an odd stream (R157, R172, R176) -/

/-- With nothing scheduled and both inputs empty nothing changes any more. -/
theorem run_idle {s : State} (hs : s.schedule = []) (he : s.encIn = []) (hd : s.decIn = []) (k : Nat) :
    Host.Core.run Sys2Proof.core k s = .next s := by
  refine run_of_step_eq_self ?_ k
  rw [step_of_encIn_nil hs he, State.afterDecodeTurn_of_nil hd]

/-- A byte that arrives while one is held completes the pair. -/
theorem run_deliver_decode {s : State} (hs : s.schedule = []) (hin : s.decIn = []) (hp : s.pairPending = true) (b : Byte) :
    Host.Core.run Sys2Proof.core 2 { s with schedule := [.deliverDec b, .decodeTurn] } =
      .next ((s.withDec [] (s.decOut ++ [decodePair s.mode s.pairHold b])).withPair false s.pairHold) := by
  obtain ⟨-, hdeliver, -⟩ := environmentMoves { s with schedule := [.deliverDec b, .decodeTurn] } b [.decodeTurn]
  have hturn : step { s with decIn := [b], schedule := [.decodeTurn] } =
      .next ((s.withSchedule []).withDec [b] s.decOut).afterDecodeTurn := step_of_decodeTurn rfl
  rw [State.withSchedule_of_nil hs, State.afterDecodeTurn_of_pending (s := s.withDec [b] s.decOut) hp rfl] at hturn
  rw [run_succ 1 (hdeliver rfl), hin]
  exact run_succ 0 hturn

theorem step_rst {s : State} (hs : s.schedule = []) : step { s with schedule := [.rst] } = .next s.forgetPair := by
  have hstep : step { s with schedule := [.rst] } = exec .reset (s.withSchedule []) := step_of_scheduled rfl rfl
  rw [hstep, State.withSchedule_of_nil hs]
  rfl

/-- Settles O50: the whole pairs are decoded, and one more turn holds the last byte. -/
theorem oddLengthDecodeIsStuck : Obligations.OddLengthDecodeIsStuck := by
  intro s ts last hs hidle hp hin heven
  obtain ⟨hold, hpairs⟩ := run_decodePairs heven hs hidle hp hin
  have hlast := step_of_encIn_nil hs hidle
    (s := (s.withDec [last] (s.decOut ++ decodePairs s.mode ts)).withPair false hold)
  rw [State.afterDecodeTurn_of_not_pending rfl rfl] at hlast
  refine ⟨_, rfl, ?_, ?_, ?_, run_idle hs hidle rfl, run_deliver_decode hs rfl rfl, _, _, step_rst hs⟩
  · rw [hin, List.length_append, run_add hpairs]
    exact run_succ 0 hlast
  · simp [State.decodeStuck, hs, deliveriesDec]
  · simp [State.decodeComplete]

/-! ### The round trip (R155) -/

theorem decodePair_encodeByte (m : Mode) (b : Byte) : decodePair m (encodeByte m b).1 (encodeByte m b).2 = b := by
  have hclean := (pairRecoveredExactlyWhenCorrectable m b 0#8 0#8).mpr (correctable_iff.mpr (by rw [inverse_zero]; decide))
  rwa [BitVec.xor_zero, BitVec.xor_zero] at hclean

theorem decodePairs_encodeStream (m : Mode) (bs : List Byte) : decodePairs m (encodeStream m bs) = bs := by
  induction bs with
  | nil => rfl
  | cons b bs ih => simp only [encodeStream, decodePairs, decodePair_encodeByte, ih]

theorem length_channel_encodeStream (m : Mode) {bs es : List Byte} (h : es.length = 2 * bs.length) :
    (channel (encodeStream m bs) es).length = 2 * bs.length := by
  rw [channel, List.length_zipWith, length_encodeStream, h, Nat.min_self]

theorem getElem?_channel {sent errors : List Byte} {i : Nat} {b e : Byte} (hb : sent[i]? = some b)
    (he : errors[i]? = some e) : (channel sent errors)[i]? = some (b ^^^ e) := by
  simp [channel, List.getElem?_zipWith, hb, he]

/-- A byte sent is received wherever the mask of its pair is correctable (R137). -/
theorem getElem?_decodePairs_channel {m : Mode} {bs es : List Byte} {i : Nat} {b e0 e1 : Byte} (hb : bs[i]? = some b)
    (h0 : es[2 * i]? = some e0) (h1 : es[2 * i + 1]? = some e1) (hc : correctable m e0 e1 = true) :
    (decodePairs m (channel (encodeStream m bs) es))[i]? = some b := by
  obtain ⟨hfirst, hsecond⟩ := getElem?_encodeStream m hb
  rw [getElem?_decodePairs m (getElem?_channel hfirst h0) (getElem?_channel hsecond h1),
    (pairRecoveredExactlyWhenCorrectable m b e0 e1).mpr hc]

/-- Settles O51: a pair without errors decodes to its byte, and so does one with a correctable mask. -/
theorem streamRoundTrip : Obligations.StreamRoundTrip := by
  refine ⟨fun m bs => ?_, fun m bs es hlen => ?_⟩
  · rw [decodeStream_of_even m (by rw [length_encodeStream]; omega), decodePairs_encodeStream]
  · have hchannel := length_channel_encodeStream m hlen
    refine ⟨_, decodeStream_of_even m (by omega), by rw [length_decodePairs]; omega, fun i e0 e1 h0 h1 hc => ?_⟩
    obtain ⟨hmask, -⟩ := List.getElem?_eq_some_iff.mp h0
    have hi : i < bs.length := by omega
    rw [List.getElem?_eq_getElem hi]
    exact getElem?_decodePairs_channel (List.getElem?_eq_getElem hi) h0 h1 hc

theorem correctable_of_allCorrectable {m : Mode} {es : List Byte} (h : allCorrectable m es = true) {i : Nat} {e0 e1 : Byte}
    (h0 : es[2 * i]? = some e0) (h1 : es[2 * i + 1]? = some e1) : correctable m e0 e1 = true := by
  induction es using allCorrectable.induct generalizing i with
  | case1 a0 a1 rest ih =>
    obtain ⟨hhead, hrest⟩ := Bool.and_eq_true_iff.mp h
    cases i with
    | zero => cases h0; cases h1; exact hhead
    | succ i => exact ih hrest h0 h1
  | case2 e => cases h1
  | case3 => cases h0

/-- The whole stream is received where every pair's mask is correctable. -/
theorem decodePairs_channel_of_allCorrectable {m : Mode} {bs es : List Byte} (hlen : es.length = 2 * bs.length)
    (h : allCorrectable m es = true) : decodePairs m (channel (encodeStream m bs) es) = bs := by
  have hchannel := length_channel_encodeStream m hlen
  have hout : (decodePairs m (channel (encodeStream m bs) es)).length = bs.length := by
    rw [length_decodePairs]; omega
  refine List.ext_getElem hout fun i _ hi => ?_
  have h0 := List.getElem?_eq_getElem (l := es) (i := 2 * i) (by omega)
  have h1 := List.getElem?_eq_getElem (l := es) (i := 2 * i + 1) (by omega)
  have hbyte := getElem?_decodePairs_channel (List.getElem?_eq_getElem hi) h0 h1 (correctable_of_allCorrectable h h0 h1)
  exact Option.some.inj ((List.getElem?_eq_getElem _).symm.trans hbyte)

/-- Settles O52: the transmitter's run answers the stream encoded, and the receiver's run decodes what the channel makes
of it. -/
theorem linkRecoversSentBytes : Obligations.LinkRecoversSentBytes := by
  intro tx rx t es hmode htx hout hrx hidle hp hlen hc hrun hin
  have hsend := hrun.symm.trans (run_encodePath htx rfl)
  cases hsend
  rw [State.withEnc_encOut, hout, List.nil_append] at hin
  have hchannel := length_channel_encodeStream tx.mode hlen
  obtain ⟨hold, hreceive⟩ := run_decodePairs (by rw [hin]; omega) hrx hidle hp (List.append_nil _).symm
  refine ⟨_, hreceive, ?_, ?_⟩
  · simp [hin, ← hmode, decodePairs_channel_of_allCorrectable hlen hc]
  · simp [State.decodeComplete, hrx, deliveriesDec]

/-! ### Output is final once its input is consumed (R156) -/

/-- What the encode path has popped along a run: bytes encoded in order, at most one a step. -/
theorem run_encodePath_popped (k : Nat) {s t : State} (hd : Drive.takeEnc ∉ s.schedule)
    (hrun : Host.Core.run Sys2Proof.core k s = .next t) : ∃ popped : List Byte, popped.length ≤ k ∧
      s.encComing = popped ++ t.encComing ∧ t.encOut = s.encOut ++ encodeStream s.mode popped := by
  induction k generalizing s with
  | zero => cases hrun; exact ⟨[], Nat.le_refl 0, rfl, (List.append_nil _).symm⟩
  | succ k ih =>
    obtain ⟨u, hu, hrest⟩ := run_succ_inv hrun
    obtain ⟨popped, hk, hcoming, hout⟩ := ih (not_mem_schedule_of_step hd hu) hrest
    rw [step_mode hu] at hout
    obtain ⟨hsame, hkept⟩ | ⟨b, hpop, hemit⟩ := step_encodePath (State.nextDrive_ne hd nofun nofun) hu
    · exact ⟨popped, by omega, by rw [← hkept, hcoming], by rw [hout, hsame]⟩
    · exact ⟨b :: popped, Nat.succ_le_succ hk, by rw [hpop, hcoming]; rfl, by simp [hout, hemit, encodeStream]⟩

/-- A step pops at most one of the bytes in `DEC_IN` or still to come there. -/
theorem step_decIn_length {s t : State} (h : step s = .next t) :
    s.decIn.length + (deliveriesDec s.schedule).length ≤ t.decIn.length + (deliveriesDec t.schedule).length + 1 := by
  have heffect := stepEffect_of_step h
  rw [deliveriesDec_schedule s, step_schedule h]
  revert heffect
  cases s.nextDrive with
  | decodeTurn =>
    cases hin : s.decIn with
    | nil =>
      simp only [State.stepEffect, hin]
      rintro rfl
      rw [State.advance_decIn, hin]
      exact Nat.le_succ _
    | cons b rest =>
      cases hp : s.pairPending <;> simp only [State.stepEffect, hin, hp] <;> rintro rfl <;>
        exact Nat.le_of_eq (Nat.add_right_comm ..)
  | encodeTurn => cases hin : s.encIn <;> simp only [State.stepEffect, hin] <;> rintro rfl <;> exact Nat.le_succ _
  | deliverDec b => rintro rfl; simp [deliveriesDec]; omega
  | nibble v | frame v | codewords l r | pair b0 b1 => rintro ⟨p, rfl⟩; exact Nat.le_succ _
  | rst | deliverEnc b | takeEnc | takeDec | idle => rintro rfl; exact Nat.le_succ _

/-- A run pops at most one of those bytes a step. -/
theorem run_decIn_length (k : Nat) {s t : State} (hrun : Host.Core.run Sys2Proof.core k s = .next t) :
    s.decIn.length + (deliveriesDec s.schedule).length ≤ t.decIn.length + (deliveriesDec t.schedule).length + k := by
  induction k generalizing s with
  | zero => cases hrun; exact Nat.le_refl _
  | succ k ih =>
    obtain ⟨u, hu, hrest⟩ := run_succ_inv hrun
    have hstep := step_decIn_length hu
    have hlater := ih hrest
    omega

/-- What the decode path has popped along a run: whole pairs, decoded in order, beside the byte it holds at the end. -/
theorem run_decodePath_popped (k : Nat) {s t : State} (hd : Drive.takeDec ∉ s.schedule) (hr : Drive.rst ∉ s.schedule)
    (hrun : Host.Core.run Sys2Proof.core k s = .next t) : ∃ popped : List Byte, popped.length % 2 = 0 ∧
      s.decComing = popped ++ t.decComing ∧ t.decOut = s.decOut ++ decodePairs s.mode popped := by
  induction k generalizing s with
  | zero => cases hrun; exact ⟨[], rfl, rfl, (List.append_nil _).symm⟩
  | succ k ih =>
    obtain ⟨u, hu, hrest⟩ := run_succ_inv hrun
    obtain ⟨popped, heven, hcoming, hout⟩ := ih (not_mem_schedule_of_step hd hu) (not_mem_schedule_of_step hr hu) hrest
    rw [step_mode hu] at hout
    obtain ⟨hsame, hkept⟩ | ⟨b0, b1, hpop, hemit⟩ :=
      step_decodePath (State.nextDrive_ne hd nofun nofun) (State.nextDrive_ne hr nofun nofun) hu
    · exact ⟨popped, heven, by rw [← hkept, hcoming], by rw [hout, hsame]⟩
    · exact ⟨b0 :: b1 :: popped, by simp only [List.length_cons]; omega, by rw [hpop, hcoming]; rfl,
        by simp [hout, hemit, decodePairs]⟩

/-- Settles O53: what each path has popped along the run; the decode path's bound counts the bytes of `DEC_IN`, or still to
come there, at both ends. -/
theorem outputFinalOnceInputConsumed : Obligations.OutputFinalOnceInputConsumed := by
  refine ⟨fun k s t => run_encodePath_popped k, fun k s t hd hr hrun => ?_, encodeStream_append,
    fun m as bs heven => decodePairs_append m heven bs⟩
  obtain ⟨popped, heven, hcoming, hout⟩ := run_decodePath_popped k hd hr hrun
  refine ⟨popped, heven, ?_, hcoming, hout⟩
  have hlength := congrArg List.length hcoming
  simp only [State.decComing, List.length_append] at hlength
  have hpops := run_decIn_length k hrun
  omega

end Sys2Proof.Machine
end

section
/-! PROOFS of the family 60_exceptions.md: no step of any state stops (R170, R175), and DECN completes on every error
pattern, with the nibble sent exactly when at most one bit is wrong (R171). -/

namespace Sys2Proof.Machine

/-- Settles O8: the word on the driven unit's inputs decodes to an operation that the state selects, so each drive's step
answers a next state. -/
theorem stepNeverStops : Obligations.StepNeverStops := by
  intro s
  obtain ⟨t, hstep, -⟩ := step_effect s
  exact ⟨t, hstep⟩

/-- Settles O21: DECN answers the one nibble whose codeword is within one bit of the value received, and from the codeword
sent that value differs by the mask. -/
theorem uncorrectableCodewordCompletes : Obligations.UncorrectableCodewordCompletes := by
  intro n e x s
  refine ⟨_, rfl, ?right, ?nearest⟩
  case right =>
    calc (decn ((encn n ^^^ e) ++ x)).1 = n
      _ ↔ ones (encn n ^^^ e ^^^ encn n) ≤ 1 := decn_append_bit_eq_iff
      _ ↔ ones e ≤ 1 := by rw [xor_xor_self_left]
  case nearest =>
    have hnear : ones (encn n ^^^ e ^^^ encn (decn ((encn n ^^^ e) ++ x)).1) ≤ 1 := decn_append_bit_eq_iff.mp rfl
    rwa [BitVec.xor_comm, ← BitVec.xor_assoc] at hnear

end Sys2Proof.Machine
end

section
/-! PROOFS of the family 70_reset_and_hazards.md: RESET in every state and in the middle of a pair (R190, R195), what an
operation answers that its selectors or operands do not select (R192 and log entry 7), and the alignment of a codeword on the
frame port (R196). -/

namespace Sys2Proof.Machine

/-! ### RESET (R190, R195) -/

/-- Settles O38: RESET is the write that forgets the pair, and with `pair_pending = 0` the decoder's inputs select DECB0 (O5). -/
theorem resetResult : Obligations.ResetResult := by
  refine ⟨decodeOfEncode .reset, fun s => ⟨_, _, rfl, fun t b rest hreset hin => ?_⟩⟩
  obtain ⟨-, -, -, -, -, hdecoder, -⟩ := unitInputsSelectOperation t
  obtain ⟨w, hw, hfirst, -⟩ := hdecoder b rest hin
  cases hreset
  exact ⟨w, hw, hfirst rfl⟩

/-- Settles O39: RESET clears `pair_pending`, so the byte after a discarded one meets DECB0 again; DECB1 has cleared it
already, so RESET after it writes `pair_hold` alone. -/
theorem resetInTheMiddleOfAPair : Obligations.ResetInTheMiddleOfAPair := by
  refine ⟨fun s m m' b0 b1 rest hp hin => ?_, fun s b1 rest hp hin => ?_, fun s t hreset => ?_⟩
  · exact ⟨_, _, _, execDecb0_of_cons m hp hin, rfl, execDecb0_of_cons m' rfl rfl⟩
  · exact ⟨_, _, _, execDecb1_of_cons hp hin, rfl, rfl, rfl⟩
  · cases hreset
    exact ⟨rfl, rfl⟩

/-! ### Operations that are not selected (R192, log entry 7) -/

theorem State.underMode_of_ne {s : State} {m : Mode} (h : s.mode ≠ m) (run : State → Result) :
    s.underMode m run = .refused .modeChanged := if_neg h

theorem State.whenPending_of_eq {s : State} {p : Bool} (h : s.pairPending = p) (run : State → Result) :
    s.whenPending p run = run s := if_pos h

theorem State.whenPending_of_ne {s : State} {p : Bool} (h : s.pairPending ≠ p) (run : State → Result) :
    s.whenPending p run = .refused .notSelected := if_neg h

theorem State.popEnc_of_head_ne {s : State} {b x : Byte} {rest : List Byte} (hin : s.encIn = x :: rest) (hx : x ≠ b)
    (run : State → Result) : s.popEnc b run = .refused .operandNotAtHead := by
  simp [State.popEnc, hin, hx]

theorem State.popDec_of_head_ne {s : State} {b x : Byte} {rest : List Byte} (hin : s.decIn = x :: rest) (hx : x ≠ b)
    (run : State → Result) : s.popDec b run = .refused .operandNotAtHead := by
  simp [State.popDec, hin, hx]

/-- Settles O11: the first guard that fails gives the refusal; the guards before it hold. -/
theorem misselectedOperationsRefused : Obligations.MisselectedOperationsRefused := by
  intro s
  refine ⟨fun hm => ?catDcat, fun hm => ?ilvDilv, fun m b hm => ?otherMode, fun m b hp => ?decb0Pending,
    fun b hp => ?decb1NotPending, fun b x rest hin hx => ?encbHead, fun m b x rest hin hx hp => ?decb0Head,
    fun b x rest hin hx hp => ?decb1Head⟩
  case catDcat =>
    have hne : s.mode ≠ .concatenated := by simp [hm]
    simp [exec, execCat, execDcat, State.underMode_of_ne hne]
  case ilvDilv =>
    have hne : s.mode ≠ .interleaved := by simp [hm]
    simp [exec, execIlv, execDilv, State.underMode_of_ne hne]
  case otherMode => simp [exec, execEncb, execDecb1, State.underMode_of_ne hm]
  case decb0Pending =>
    have hne : s.pairPending ≠ false := by simp [hp]
    rw [exec, execDecb0, State.whenPending_of_ne hne]
  case decb1NotPending =>
    have hne : s.pairPending ≠ true := by simp [hp]
    rw [exec, execDecb1, State.underMode_self, State.whenPending_of_ne hne]
  case encbHead => rw [exec, execEncb, State.underMode_self, State.popEnc_of_head_ne hin hx]
  case decb0Head => rw [exec, execDecb0, State.whenPending_of_eq hp, State.popDec_of_head_ne hin hx]
  case decb1Head => rw [exec, execDecb1, State.underMode_self, State.whenPending_of_eq hp, State.popDec_of_head_ne hin hx]

/-! ### Codewords on the frame port (R196) -/

/-- Right-aligned on the frame port, a codeword is read one place too low: its last bit falls into the p4 slot. -/
theorem setWidth_eq_shiftRight_append (c : Codeword) : c.setWidth 8 = (c >>> 1) ++ c.extractLsb' 0 1 := by
  revert c; decide

/-- The codewords that stay within one bit of themselves when shifted by one place. -/
theorem ones_encn_shiftRight_xor_le_one_iff : ∀ n : Nibble,
    ones (encn n >>> 1 ^^^ encn n) ≤ 1 ↔ n = 0x0#4 ∨ n = 0x7#4 ∨ n = 0xF#4 := by
  decide

theorem decn_setWidth_encn_eq_iff (n : Nibble) :
    (decn ((encn n).setWidth 8)).1 = n ↔ n = 0x0#4 ∨ n = 0x7#4 ∨ n = 0xF#4 := by
  rw [setWidth_eq_shiftRight_append, decn_append_bit_eq_iff]
  exact ones_encn_shiftRight_xor_le_one_iff n

/-- The source's functions, one on the other, wire the codeword right-aligned. -/
theorem decodeNibble_encodeNibble (n : Nibble) :
    decodeNibble (encodeNibble n.toNat).toNat = (decn ((encn n).setWidth 8)).1 := by
  rw [encodeNibble, truncNibble_toNat, decodeNibble, truncFrame, BitVec.ofNat_toNat]

/-- Settles O22: shifted by one place a codeword is near itself for three nibbles alone; in its place it decodes to its
nibble, whatever stands in p4, and the pad reaches no codeword (O28). -/
theorem frameAlignmentHazard : Obligations.FrameAlignmentHazard := by
  obtain ⟨-, -, hpad⟩ := padBitsZeroAndIgnored
  refine ⟨decn_setWidth_encn_eq_iff, fun n => ?_, fun n x => congrArg Prod.fst (decn_encn_append_bit n x),
    decn_append_bit_congr, fun m b0 b1 pad hlt => (hpad m b0 b1 pad hlt).2⟩
  rw [decodeNibble_encodeNibble]
  exact decn_setWidth_encn_eq_iff n

end Sys2Proof.Machine
end
